-- ==== Sys2Proof/Word.lean ====
section
/-! DEFINITION. The word types of SH256-CORE and the one helper that lays out a register file.
Spec: 00_scope.md R6 (sizes) and R8 (numbers and bits), 30_encoding.md R80 (command width). -/

namespace Sys2Proof

/-- A datapath word: an unsigned 32-bit value (R6 `WORD`, R8, R110). -/
abbrev Word := BitVec 32

/-- A byte: an unsigned value 0..255 (R8). -/
abbrev Byte := BitVec 8

/-- A command word on the command port (R6 `CMD_BITS`, R80). -/
abbrev Cmd := BitVec 16

/-- The register file of `n` entries whose entry `i` is `f i`. -/
def tabulate {α : Type} (n : Nat) (f : Nat → α) : Vector α n :=
  ⟨((List.range n).map f).toArray, by simp⟩

@[simp] theorem tabulate_getElem {α : Type} (n : Nat) (f : Nat → α) (i : Nat) (h : i < n) :
    (tabulate n f)[i] = f i := by
  simp [tabulate]

end Sys2Proof
end

