-- ==== Sys2Proof/Syntax.lean ====
section
/-! DEFINITION. The nine commands, one constructor per row of spec/opcode_table.json
(30_encoding.md R82, R83). Each operand has the width the table's encoding gives it. -/

namespace Sys2Proof

/-- A command of the command port. -/
inductive Instr where
  /-- `NOP`, opcode 0x0 (44_commands.md R201). -/
  | nop
  /-- `INIT`, opcode 0x1 (R202). -/
  | init
  /-- `DATA b`, opcode 0x2: `b` is the message byte (R203). -/
  | data (b : Byte)
  /-- `FINAL`, opcode 0x3 (R204). -/
  | final
  /-- `ENDRAW`, opcode 0x4 (R205). -/
  | endraw
  /-- `RDW i`, opcode 0x5: `i` is the index of a state word, 0..7 (R206). -/
  | rdw (i : BitVec 3)
  /-- `RDB i`, opcode 0x6: `i` is the index of a digest byte, 0..31 (R207). -/
  | rdb (i : BitVec 5)
  /-- `RDX i`, opcode 0x7: `i` is the index of a digest character, 0..63 (R208). -/
  | rdx (i : BitVec 6)
  /-- `RDSR n`, opcode 0x8: `n` is the number of a status register, 0..4 (R209). The three-bit field of
  the table also holds 5, 6, 7, which are illegal (R84): `Instr.wf` refuses them. -/
  | rdsr (n : BitVec 3)
deriving DecidableEq, Repr

end Sys2Proof
end

