-- ==== Sys2Proof/WellFormed.lean ====
section
/-! DEFINITION. Which commands are well formed. Every operand range but one is the range of the
operand's type; the one check is the constraint `n <= 4` of row RDSR of spec/opcode_table.json
(30_encoding.md R83, R84; 90_conflicts.md C8). -/

namespace Sys2Proof

/-- The command is one of the 369 legal ones. -/
def Instr.wf : Instr → Bool
  | .nop => true
  | .init => true
  | .data _ => true
  | .final => true
  | .endraw => true
  | .rdw _ => true
  | .rdb _ => true
  | .rdx _ => true
  | .rdsr n => decide (n.toNat ≤ 4)

end Sys2Proof
end

