-- ==== Sys2Proof/Decode.lean ====
section
/-! DEFINITION. The decoder of the command format `C16`, total on all 65,536 words and rejecting by
name, the legality predicate of the spec beside it, and the encoder
(30_encoding.md R80 to R86; spec/opcode_table.json). -/

namespace Sys2Proof

/-- Bits 15:12 of a command word, the operation code (R80). -/
def opField (w : Cmd) : BitVec 4 := w.extractLsb' 12 4

/-- Bits 11:8 of a command word, reserved (R80). -/
def rsvField (w : Cmd) : BitVec 4 := w.extractLsb' 8 4

/-- Bits 7:0 of a command word, the operand (R80, R83). -/
def immField (w : Cmd) : Byte := w.extractLsb' 0 8

/-- A command word put together from its three fields, `OP ‖ RSV ‖ IMM` (R80). -/
def packFields (op rsv : BitVec 4) (imm : Byte) : Cmd := (op ++ rsv) ++ imm

/-- The legality predicate a decoder applies to any word (R84), written as the spec writes it. -/
def legal (w : Cmd) : Bool :=
  let op := (opField w).toNat
  let imm := (immField w).toNat
  (rsvField w).toNat == 0 &&
    (((op == 0x0 || op == 0x1 || op == 0x3 || op == 0x4) && imm == 0)
      || op == 0x2
      || (op == 0x5 && decide (imm ≤ 7))
      || (op == 0x6 && decide (imm ≤ 31))
      || (op == 0x7 && decide (imm ≤ 63))
      || (op == 0x8 && decide (imm ≤ 4)))

/-- Why a word is an illegal command (R85). The four names are those of 95_test_vectors.md section 7.1. -/
inductive Illegal where
  /-- `OP` in 0x9..0xF. -/
  | reservedOp
  /-- `RSV` is not 0. -/
  | reservedBits
  /-- `IMM` must be 0 and is not. -/
  | immNotZero
  /-- The index lies outside the command's range. -/
  | indexRange
deriving DecidableEq, Repr

/-- The command with this operation code and operand, the reserved bits being 0. -/
def decodeOp (op : Nat) (imm : Byte) : Except Illegal Instr :=
  match op with
  | 0x0 => if imm = 0 then .ok .nop else .error .immNotZero
  | 0x1 => if imm = 0 then .ok .init else .error .immNotZero
  | 0x2 => .ok (.data imm)
  | 0x3 => if imm = 0 then .ok .final else .error .immNotZero
  | 0x4 => if imm = 0 then .ok .endraw else .error .immNotZero
  | 0x5 => if imm.toNat ≤ 7 then .ok (.rdw (imm.setWidth 3)) else .error .indexRange
  | 0x6 => if imm.toNat ≤ 31 then .ok (.rdb (imm.setWidth 5)) else .error .indexRange
  | 0x7 => if imm.toNat ≤ 63 then .ok (.rdx (imm.setWidth 6)) else .error .indexRange
  | 0x8 => if imm.toNat ≤ 4 then .ok (.rdsr (imm.setWidth 3)) else .error .indexRange
  | _ => .error .reservedOp

/-- The decoder: the command a word is, or why it is none (R82 to R85). A reserved `OP` is named before
reserved bits; which of two reasons is named is not observable
(log entry 8). -/
def decode (w : Cmd) : Except Illegal Instr :=
  if 9 ≤ (opField w).toNat then .error .reservedOp
  else if rsvField w ≠ 0 then .error .reservedBits
  else decodeOp (opField w).toNat (immField w)

/-- The words of a command as the host numbers them: bit 0 is the least significant bit of the one
16-bit command word; a row has at most 16 bits and the bits above `nbits` are 0. -/
def tableWord (nbits w : Nat) : Option Cmd :=
  if nbits ≤ 16 ∧ w < 2 ^ nbits then some (BitVec.ofNat 16 w) else none

/-- The command the decoder reads from a table word, none where it refuses. -/
def decodeTableWord (nbits w : Nat) : Option Instr :=
  match tableWord nbits w with
  | some c =>
    match decode c with
    | .ok i => some i
    | .error _ => none
  | none => none

/-- The encoder: the command word of a well-formed command, `0x0000` to `0x8004` as in the encoding
lines of 44_commands.md R201 to R209. -/
def encode : Instr → Cmd
  | .nop => packFields 0x0 0 0
  | .init => packFields 0x1 0 0
  | .data b => packFields 0x2 0 b
  | .final => packFields 0x3 0 0
  | .endraw => packFields 0x4 0 0
  | .rdw i => packFields 0x5 0 (i.setWidth 8)
  | .rdb i => packFields 0x6 0 (i.setWidth 8)
  | .rdx i => packFields 0x7 0 (i.setWidth 8)
  | .rdsr n => packFields 0x8 0 (n.setWidth 8)

end Sys2Proof
end

