-- ==== Sys2Proof/Machine/Operators.lean ====
section
/-! DEFINITION. The word operators and the six SHA-256 functions of the datapath, and the length and
byte-order conversions (40_operators.md R110 to R120, R123; 00_scope.md R8; 20_memory.md R54, R55). -/

namespace Sys2Proof.Machine

/-- `add32(x, y) = (x + y) mod 2^32`; the carry out is dropped (R111). -/
def add32 (x y : Word) : Word := x + y

/-- `x and y` (R112). -/
def and32 (x y : Word) : Word := x &&& y

/-- `x or y` (R112). -/
def or32 (x y : Word) : Word := x ||| y

/-- `x xor y` (R112). -/
def xor32 (x y : Word) : Word := x ^^^ y

/-- `not x`, the complement over exactly 32 bits (R112). -/
def not32 (x : Word) : Word := ~~~x

/-- `shr(x, n) = floor(x / 2^n)`, the logical right shift (R113). -/
def shr (x : Word) (n : Nat) : Word := x >>> n

/-- `x << n = (x · 2^n) mod 2^32` (R113). -/
def shl (x : Word) (n : Nat) : Word := x <<< n

/-- `rotr(x, n)`, rotate right, for `n` in 1..31 (R114). The spec leaves other amounts undefined and no
rule uses one; at 0 and 32 the formula gives the identity, the one value R114 allows (log entry 9). -/
def rotr (x : Word) (n : Nat) : Word := or32 (shr x n) (shl x (32 - n))

/-- `σ0`, small sigma 0 (R115). -/
def ssig0 (x : Word) : Word := xor32 (xor32 (rotr x 7) (rotr x 18)) (shr x 3)

/-- `σ1`, small sigma 1 (R116). -/
def ssig1 (x : Word) : Word := xor32 (xor32 (rotr x 17) (rotr x 19)) (shr x 10)

/-- `Σ0`, big sigma 0 (R117). -/
def bsig0 (x : Word) : Word := xor32 (xor32 (rotr x 2) (rotr x 13)) (rotr x 22)

/-- `Σ1`, big sigma 1 (R118). -/
def bsig1 (x : Word) : Word := xor32 (xor32 (rotr x 6) (rotr x 11)) (rotr x 25)

/-- `Ch`, choose (R119). -/
def ch (x y z : Word) : Word := xor32 (and32 x y) (and32 (not32 x) z)

/-- `Maj`, majority (R120). -/
def maj (x y z : Word) : Word := xor32 (xor32 (and32 x y) (and32 x z)) (and32 y z)

/-- The bit length `8·L` as a 64-bit value: `L` shifted left by three places (R123). -/
def bitLen (L : BitVec 61) : BitVec 64 := L ++ 0#3

/-- `be32(x)`: the four bytes of a word, most significant first (R8). -/
def be32 (x : Word) : List Byte :=
  [x.extractLsb' 24 8, x.extractLsb' 16 8, x.extractLsb' 8 8, x.extractLsb' 0 8]

/-- `be64(x)`: the eight bytes of a 64-bit value, most significant first (R8). -/
def be64 (x : BitVec 64) : List Byte :=
  [x.extractLsb' 56 8, x.extractLsb' 48 8, x.extractLsb' 40 8, x.extractLsb' 32 8,
   x.extractLsb' 24 8, x.extractLsb' 16 8, x.extractLsb' 8 8, x.extractLsb' 0 8]

/-- Four bytes read as one word, the first in the most significant place (20_memory.md R54). -/
def beWord (b0 b1 b2 b3 : Byte) : Word := ((b0 ++ b1) ++ b2) ++ b3

end Sys2Proof.Machine
end

