-- ==== Sys2Proof/Machine/Compressor.lean ====
section
/-! DEFINITION. The Compressor as pure functions: the message schedule, the round, the 64 rounds, the
state update, one block and a whole input (42_compressor.md R160 to R172). -/

namespace Sys2Proof.Machine

/-- `W[t]`. -/
def getW (W : Vector Word 64) (t : BitVec 6) : Word := W[t.toNat]

/-- `W[t] <- w`. -/
def setW (W : Vector Word 64) (t : BitVec 6) (w : Word) : Vector Word 64 := W.set t.toNat w

/-- Word `t` of a block, for `t` in 0..15: its bytes `4t..4t+3`, big-endian (R164). -/
def blockWord (B : Vector Byte 64) (t : BitVec 4) : Word :=
  beWord B[4 * t.toNat] B[4 * t.toNat + 1] B[4 * t.toNat + 2] B[4 * t.toNat + 3]

/-- Step 1a at word `t` in 0..15: `W[t] <- MemRead(BUF, 4·t, 4)` (R164). -/
def loadStep (B : Vector Byte 64) (W : Vector Word 64) (t : BitVec 4) : Vector Word 64 :=
  setW W (t.setWidth 6) (blockWord B t)

/-- Step 1b at word `t` in 16..63 (R165). -/
def expandStep (W : Vector Word 64) (t : BitVec 6) : Vector Word 64 :=
  setW W t (add32 (add32 (add32 (getW W (t - 16)) (ssig0 (getW W (t - 15)))) (getW W (t - 7)))
    (ssig1 (getW W (t - 2))))

/-- Step 1a for `t` in 0..15 in increasing order (R164). -/
def loadAll (B : Vector Byte 64) (W : Vector Word 64) : Vector Word 64 :=
  (List.range 16).foldl (fun W t => loadStep B W (BitVec.ofNat 4 t)) W

/-- Step 1b for `t` in 16..63 in increasing order (R165). -/
def expandAll (W : Vector Word 64) : Vector Word 64 :=
  (List.range' 16 48).foldl (fun W t => expandStep W (BitVec.ofNat 6 t)) W

/-- The message schedule of a block (R164, R165). The words it starts from are all overwritten before
any is read. -/
def schedule (B : Vector Byte 64) : Vector Word 64 :=
  expandAll (loadAll B (Vector.replicate 64 0))

/-- `T1` of a round with constant `k` and schedule word `w` (R167). -/
def roundT1 (v : Vector Word 8) (k w : Word) : Word :=
  add32 (add32 (add32 (add32 v[7] (bsig1 v[4])) (ch v[4] v[5] v[6])) k) w

/-- `T2` of a round (R167). -/
def roundT2 (v : Vector Word 8) : Word := add32 (bsig0 v[0]) (maj v[0] v[1] v[2])

/-- One round: the eight simultaneous assignments (R167). -/
def round (v : Vector Word 8) (k w : Word) : Vector Word 8 :=
  #v[add32 (roundT1 v k w) (roundT2 v), v[0], v[1], v[2], add32 v[3] (roundT1 v k w), v[4], v[5], v[6]]

/-- Round `t`, with `K[t]` and `W[t]` (R167). -/
def roundStep (W : Vector Word 64) (v : Vector Word 8) (t : BitVec 6) : Vector Word 8 :=
  round v (K t) (getW W t)

/-- Rounds 0..63 in that order (R167). -/
def roundsAll (W : Vector Word 64) (v : Vector Word 8) : Vector Word 8 :=
  (List.range 64).foldl (fun v t => roundStep W v (BitVec.ofNat 6 t)) v

/-- Step 3, the state update: eight independent additions (R169). -/
def feedForward (h v : Vector Word 8) : Vector Word 8 := Vector.zipWith add32 h v

/-- `compress_block(H, B)`: steps R164, R165, R166, R167, R169 in that order (R170). -/
def compressBlock (h : Vector Word 8) (B : Vector Byte 64) : Vector Word 8 :=
  feedForward h (roundsAll (schedule B) h)

/-- Block `n` of an input: its bytes `64·n .. 64·n + 63` (R163). -/
def blockOf (p : List Byte) (n : Nat) : Vector Byte 64 :=
  tabulate 64 (fun j => p.getD (64 * n + j) 0)

/-- The fold over the first `n` blocks of an input (R163, R171). -/
def compressPrefix (p : List Byte) (n : Nat) : Vector Word 8 :=
  (List.range n).foldl (fun h b => compressBlock h (blockOf p b)) IV

/-- `compress(p)` (R171); none where the precondition `len(p) mod 64 = 0` fails (R161). -/
def compress (p : List Byte) : Option (Vector Word 8) :=
  if p.length % 64 = 0 then some (compressPrefix p (p.length / 64)) else none

end Sys2Proof.Machine
end

