-- ==== Sys2Proof/Config.lean ====
section
/-! DEFINITION. The configuration: the one size limit the rules compare with, and the free values.
The two constant ROMs are constants of the configuration too (20_memory.md R52); they stand in
Machine/Rom.lean. The spec's open parameters `PORT_BINDING` and `LATENCY` (00_scope.md R6) are read by
no rule and have no definition here. -/

namespace Sys2Proof

/-- `MAX_LEN_BYTES`, the largest message the core accepts: 2^61 − 1 bytes (00_scope.md R6). -/
def Config.maxLen : Nat := 2 ^ 61 - 1

/-- FREE VALUE. What working variable `V[i]` holds after the `n`-th hardware reset: the spec leaves it
unspecified (10_state.md R38, R39). It has no body, so nothing can be proved of it.
DESIGN CHOICE, log entry 3. -/
opaque Config.freeV : Nat → Nat → Word

/-- FREE VALUE. What schedule word `W[i]` holds after the `n`-th hardware reset: the spec leaves it
unspecified (10_state.md R38, R39). It has no body, so nothing can be proved of it.
DESIGN CHOICE, log entry 3. -/
opaque Config.freeW : Nat → Nat → Word

end Sys2Proof
end

