-- ==== Sys2Proof/Machine/State.lean ====
section
/-! DEFINITION. The state of the machine as plain data: everything 10_state.md R20 gives the ENGINE, and
the two ends of the command port (00_scope.md R7, 30_encoding.md R81). The fields in capitals carry the
spec's own names; the fields in small letters are the model's. -/

namespace Sys2Proof.Machine

/-- A storage space as (offset, byte) pairs. An unlisted offset holds no value: no rule has written it
(10_state.md R25, R38; 93_implementation_defined.md U3; DESIGN CHOICE, log entry 4). Its canonical form is `Memory.wf`. -/
abbrev Memory := List Host.Cell

/-- Where the ENGINE stands in an invocation (R29). The encoding 3 never occurs and has no constructor. -/
inductive Phase where
  | ready
  | done
  | error
deriving DecidableEq, Repr

/-- The code of the first error since the last INIT or reset (R30). Codes 5, 6, 7 never occur. -/
inductive ErrCode where
  | none
  /-- `ERR_ALIGN`. -/
  | align
  /-- `ERR_LEN`. -/
  | len
  /-- `ERR_SEQ`. -/
  | seq
  /-- `ERR_CMD`. -/
  | cmd
deriving DecidableEq, Repr

/-- The stage of the sequencer (R32). The encodings 6 and 7 never occur. -/
inductive Stage where
  | idle
  | load
  | expand
  | vinit
  | round
  | add
deriving DecidableEq, Repr

/-- The sequencer `SEQ = (stage, t)` (R32). -/
structure Sequencer where
  stage : Stage
  t : BitVec 6
deriving DecidableEq, Repr

/-- `(S_IDLE, 0)`, the value of `SEQ` at every command boundary (R32). -/
def Sequencer.home : Sequencer := ⟨.idle, 0⟩

/-- A response `(data, done, err)` (30_encoding.md R81). -/
structure Response where
  data : Word
  done : Bool
  err : Bool
deriving DecidableEq, Repr

/-- What the outside world can do to the ENGINE: the HOST presents a command word (00_scope.md R7), or
the hardware reset is applied (70_reset_and_hazards.md R270). -/
inductive HostEvent where
  | command (w : Cmd)
  | reset
deriving DecidableEq, Repr

/-- The machine (10_state.md R20). -/
structure State where
  /-- `H[0..7]`, the hash state (R21). -/
  H : Vector Word 8
  /-- `V[0..7]`, the working variables `a..h`; scratch (R22). -/
  V : Vector Word 8
  /-- `W[0..63]`, the message schedule; scratch (R23). -/
  W : Vector Word 64
  /-- `BUF[0..63]`, the block buffer (R25). -/
  BUF : Memory
  /-- `FILL`, the number of valid bytes in `BUF`, 0..63 (R26). The 64 it reaches inside a command is a
  local number of the rules and is never stored (log entry 6). -/
  FILL : BitVec 6
  /-- `LEN`, the number of DATA bytes accepted (R27). -/
  LEN : BitVec 61
  /-- `BLKCNT`, the number of block compressions completed (R28). -/
  BLKCNT : BitVec 56
  /-- `PHASE` (R29). -/
  PHASE : Phase
  /-- `ERR` (R30). -/
  ERR : ErrCode
  /-- `SEQ` (R32). -/
  SEQ : Sequencer
  /-- The model's own: what the outside world is going to present, the next event first (log entry 1). -/
  inputs : List HostEvent
  /-- The model's own: the response to the latest command, none before the first (log entry 2). -/
  resp : Option Response
  /-- The model's own: the number of the latest hardware reset, the index of its free values (log
  entry 3). -/
  draws : Nat
deriving DecidableEq, Repr

/-- Why the machine stops. Neither reason can arise from a state that meets `BoundaryInv` (Safety.lean). -/
inductive Fault where
  /-- Raised by `compressBuf` and by the `S_LOAD` micro-step when they read a byte of `BUF` that nothing
  has written since reset. Safe: the spec gives that byte no value and says that reading one is a model
  fault (93_implementation_defined.md U3). -/
  | unwrittenByte (offset : Nat)
  /-- Raised by `microStep` when `SEQ` holds an index its stage never has (10_state.md R32). Safe: the
  spec gives that state no meaning because it never occurs. -/
  | seqRange (q : Sequencer)
deriving DecidableEq, Repr

/-- Why the model gives no meaning. -/
inductive Refusal where
  /-- Raised by `exec` for a row of the opcode table that has no meaning yet; no row is left so. Safe. -/
  | notModelled (mnemonic : String)
deriving DecidableEq, Repr

/-- The state right after a hardware reset (10_state.md R39), nothing presented yet. `V` and `W` are
unspecified there and hold the free values of reset 0; no byte of `BUF` is written. -/
def State.reset : State where
  H := IV
  V := tabulate 8 (Config.freeV 0)
  W := tabulate 64 (Config.freeW 0)
  BUF := []
  FILL := 0
  LEN := 0
  BLKCNT := 0
  PHASE := .ready
  ERR := .none
  SEQ := Sequencer.home
  inputs := []
  resp := none
  draws := 0

end Sys2Proof.Machine
end

