-- ==== Sys2Proof/Machine/Flags.lean ====
section
/-! DEFINITION. The flags of this hardware, `PHASE`, `ERR` and the outputs `done` and `err`, and the five
status registers that show them with the counters (10_state.md R29 to R35). There are no arithmetic
flags (R31). -/

namespace Sys2Proof.Machine

/-- The two-bit encoding of `PHASE` (R29). -/
def Phase.code : Phase → BitVec 2
  | .ready => 0
  | .done => 1
  | .error => 2

/-- The three-bit encoding of `ERR` (R30, 60_exceptions.md R241). -/
def ErrCode.code : ErrCode → BitVec 3
  | .none => 0
  | .align => 1
  | .len => 2
  | .seq => 3
  | .cmd => 4

/-- The output `done`: 1 iff `PHASE = DONE` (R31). -/
def State.doneOut (s : State) : Bool := decide (s.PHASE = .done)

/-- The output `err`: 1 iff `PHASE = ERROR` (R31). -/
def State.errOut (s : State) : Bool := decide (s.PHASE = .error)

/-- `SR0`, STATUS: `PHASE` in bits 1:0, `ERR` in 6:4, `FILL` in 13:8, zeros elsewhere (R33). -/
def State.sr0 (s : State) : Word :=
  (((((0 : BitVec 18) ++ s.FILL) ++ (0 : BitVec 1)) ++ s.ERR.code) ++ (0 : BitVec 2)) ++ s.PHASE.code

/-- `SR1`, LEN_LO: `LEN[31:0]` (R34). -/
def State.sr1 (s : State) : Word := s.LEN.extractLsb' 0 32

/-- `SR2`, LEN_HI: `zext_32(LEN[60:32])` (R34). -/
def State.sr2 (s : State) : Word := (s.LEN.extractLsb' 32 29).setWidth 32

/-- `SR3`, BLK_LO: `BLKCNT[31:0]` (R35). -/
def State.sr3 (s : State) : Word := s.BLKCNT.extractLsb' 0 32

/-- `SR4`, BLK_HI: `zext_32(BLKCNT[55:32])` (R35). -/
def State.sr4 (s : State) : Word := (s.BLKCNT.extractLsb' 32 24).setWidth 32

end Sys2Proof.Machine
end

