-- ==== Sys2Proof/Machine/Memory.lean ====
section
/-! DEFINITION. The operations on the block buffer: reading and writing one byte, the canonical form, and
the wider accesses built from the byte (20_memory.md R50, R54, R58; 00_scope.md R9 `MemRead`, `MemWrite`). -/

namespace Sys2Proof.Machine

/-- The canonical form of `BUF`: offsets strictly rising, and all of them inside 0..63 (R50). -/
abbrev Memory.wf (m : Memory) : Prop :=
  m.Pairwise (fun c d => c.1 < d.1) ∧ ∀ c ∈ m, c.1 < 64

/-- `MemRead(BUF, a, 1)`: the byte at offset `a`, none where nothing has written one. -/
def Memory.read : Memory → Nat → Option Byte
  | [], _ => none
  | c :: m, a => if c.1 = a then some c.2 else Memory.read m a

/-- `MemWrite(BUF, a, 1, b)`. -/
def Memory.write : Memory → Nat → Byte → Memory
  | [], a, b => [(a, b)]
  | c :: m, a, b =>
    if a < c.1 then (a, b) :: c :: m
    else if a = c.1 then (a, b) :: m
    else c :: Memory.write m a b

/-- The bytes of a list written one after another from offset `a` up. -/
def Memory.writeList : Memory → Nat → List Byte → Memory
  | m, _, [] => m
  | m, a, b :: bs => Memory.writeList (Memory.write m a b) (a + 1) bs

/-- `MemRead(BUF, a, 4)`, big-endian (R54), or the first of the four offsets that holds no value. -/
def Memory.readWord (m : Memory) (a : Nat) : Except Nat Word :=
  match m.read a, m.read (a + 1), m.read (a + 2), m.read (a + 3) with
  | some b0, some b1, some b2, some b3 => .ok (beWord b0 b1 b2 b3)
  | none, _, _, _ => .error a
  | _, none, _, _ => .error (a + 1)
  | _, _, none, _ => .error (a + 2)
  | _, _, _, none => .error (a + 3)

/-- The first of the 64 offsets that holds no value. -/
def Memory.firstUnwritten (m : Memory) : Option Nat :=
  (List.range 64).find? (fun a => (m.read a).isNone)

/-- The 64 bytes of the buffer, read only where `firstUnwritten` finds none missing. -/
def Memory.block (m : Memory) : Vector Byte 64 :=
  tabulate 64 (fun a => (m.read a).getD 0)

end Sys2Proof.Machine
end

