-- ==== Sys2Proof/Machine/Ops.lean ====
section
/-! DEFINITION. The operations the commands share: answering, the error entry, the gate of phase ERROR,
starting an invocation, the hardware reset, storing a byte and compressing the buffer
(44_commands.md R200, R202, R210, R213; 60_exceptions.md R248; 70_reset_and_hazards.md R270). -/

namespace Sys2Proof.Machine

/-- What an operation of the machine answers. -/
abbrev Result := Host.Outcome State Fault Refusal

/-- One operation after another; a stop of the first is a stop of both. -/
def andThen (r : Result) (f : State → Result) : Result :=
  match r with
  | .next s => f s
  | .fault x => .fault x
  | .refused x => .refused x

/-- The response to a command: its data, and the outputs as they stand after it (30_encoding.md R81,
44_commands.md R200). -/
def respond (d : Word) (s : State) : State :=
  { s with resp := some ⟨d, s.doneOut, s.errOut⟩ }

/-- `raise Err(code)`, the error entry: `PHASE <- ERROR`, `ERR <- code`, response data 0, nothing else
(60_exceptions.md R248). It is what this hardware has in the place of an exception. -/
def raiseErr (code : ErrCode) (s : State) : State :=
  respond 0 { s with PHASE := .error, ERR := code }

/-- The registers an invocation starts with, put there by INIT and by reset alike (10_state.md R39,
44_commands.md R202). It is also the one way back from phase ERROR (60_exceptions.md R250).
That it puts `SEQ` at rest is R39's word (DEDUCED, log entry 11). -/
def initialise (s : State) : State :=
  { s with H := IV, FILL := 0, LEN := 0, BLKCNT := 0, PHASE := .ready, ERR := .none,
           SEQ := Sequencer.home }

/-- The hardware reset, in any state (70_reset_and_hazards.md R270, 10_state.md R39): the registers as
INIT leaves them, fresh free values in `V` and `W`, no value in `BUF`, and no response (DEDUCED, log
entry 10). -/
def hardwareReset (s : State) : State :=
  { initialise s with
    V := tabulate 8 (Config.freeV (s.draws + 1)), W := tabulate 64 (Config.freeW (s.draws + 1)),
    BUF := [], resp := none, draws := s.draws + 1 }

/-- A command that phase ERROR ignores (44_commands.md R213): there it changes nothing and answers 0. -/
def unlessError (s : State) (body : State → Result) : Result :=
  match s.PHASE with
  | .error => .next (respond 0 s)
  | .ready => body s
  | .done => body s

/-- An illegal command: `ERR_CMD` in phase READY or DONE, ignored in phase ERROR
(30_encoding.md R85, 60_exceptions.md R245). -/
def illegalCommand (s : State) : Result :=
  unlessError s (fun s => .next (raiseErr .cmd s))

/-- A command of phase READY; in phase DONE it raises `ERR_SEQ` (60_exceptions.md R244). -/
def inReady (s : State) (body : State → Result) : Result :=
  unlessError s (fun s => if s.PHASE = .ready then body s else .next (raiseErr .seq s))

/-- A command of phase DONE; in phase READY it raises `ERR_SEQ` (60_exceptions.md R244). -/
def inDone (s : State) (body : State → Result) : Result :=
  unlessError s (fun s => if s.PHASE = .done then body s else .next (raiseErr .seq s))

/-- The state after one block compression of the 64 bytes of `BUF` (44_commands.md R210), with what the
steps of 42_compressor.md R164 to R169 leave in the scratch registers (R170; DEDUCED, log entry 5). -/
def compressed (s : State) : State :=
  { s with
    W := schedule s.BUF.block
    V := roundsAll (schedule s.BUF.block) s.H
    H := compressBlock s.H s.BUF.block
    BLKCNT := s.BLKCNT + 1
    FILL := 0 }

/-- `CompressBuf()` (R210), which reads all of `BUF`. -/
def compressBuf (s : State) : Result :=
  match s.BUF.firstUnwritten with
  | some a => .fault (.unwrittenByte a)
  | none => .next (compressed s)

/-- The state with these bytes in `BUF`. -/
def withBuf (m : Memory) (s : State) : State := { s with BUF := m }

/-- The part of DATA that stores its byte: `MemWrite(BUF, FILL, 1, b)`, `FILL` and `LEN` one up, and the
block compressed when `FILL` comes to 64 (44_commands.md R203). -/
def appendByte (b : Byte) (s : State) : Result :=
  if s.FILL.toNat + 1 = 64 then
    compressBuf { s with BUF := s.BUF.write s.FILL.toNat b, LEN := s.LEN + 1 }
  else
    .next { s with BUF := s.BUF.write s.FILL.toNat b, LEN := s.LEN + 1, FILL := s.FILL + 1 }

/-- FINAL's bytes where the length field has no room: `0x80` at `FILL` and zeros up to offset 63
(44_commands.md R204, 41_padder.md R147). -/
def markedBlock (m : Memory) (fill : Nat) : Memory :=
  (m.write fill 0x80).writeList (fill + 1) (List.replicate (63 - fill) 0)

/-- FINAL's bytes of the last block from offset `a` up: zeros up to offset 55, and the length field at
56..63 (44_commands.md R204, 41_padder.md R143). -/
def lengthBlock (m : Memory) (a : Nat) (len : BitVec 61) : Memory :=
  (m.writeList a (List.replicate (56 - a) 0)).writeList 56 (be64 (bitLen len))

/-- The part of FINAL that produces the padding: the byte `0x80`, then zeros and the length field, with a
block of its own before the last where no room is left (44_commands.md R204, 41_padder.md R147). The
test `FILL > 56` comes after `FILL` has counted the byte `0x80`. -/
def padAndCompress (s : State) : Result :=
  if 56 < s.FILL.toNat + 1 then
    andThen (compressBuf (withBuf (markedBlock s.BUF s.FILL.toNat) s))
      (fun s => compressBuf (withBuf (lengthBlock s.BUF 0 s.LEN) s))
  else
    compressBuf (withBuf (lengthBlock (s.BUF.write s.FILL.toNat 0x80) (s.FILL.toNat + 1) s.LEN) s)

end Sys2Proof.Machine
end

