-- ==== Sys2Proof/Machine/Message.lean ====
section
/-! DEFINITION. The commands that carry and end a message: DATA, FINAL and ENDRAW
(44_commands.md R203 to R205). -/

namespace Sys2Proof.Machine

/-- `DATA b` (R203). The phase is checked before the length (60_exceptions.md R247). -/
def execData (b : Byte) (s : State) : Result :=
  inReady s (fun s =>
    if s.LEN.toNat = Config.maxLen then .next (raiseErr .len s)
    else andThen (appendByte b s) (fun s => .next (respond 0 s)))

/-- `FINAL` (R204). -/
def execFinal (s : State) : Result :=
  inReady s (fun s =>
    andThen (padAndCompress s) (fun s => .next (respond 0 { s with PHASE := .done })))

/-- `ENDRAW` (R205). -/
def execEndraw (s : State) : Result :=
  inReady s (fun s =>
    if s.FILL ≠ 0 then .next (raiseErr .align s)
    else .next (respond 0 { s with PHASE := .done }))

end Sys2Proof.Machine
end

