-- ==== Sys2Proof/Machine/Padder.lean ====
section
/-! DEFINITION. The Padder as a pure function (41_padder.md R140 to R146). -/

namespace Sys2Proof.Machine

/-- The zero-fill count `k = (55 − L) mod 64` (R141). -/
def zeroFill (L : Nat) : Nat := ((55 - (L : Int)) % 64).toNat

/-- The padded message of a message inside the domain: the message, `0x80`, `k` zero bytes, `be64(8·L)`
(R142, R143). -/
def padBytes (m : List Byte) : List Byte :=
  m ++ [0x80] ++ List.replicate (zeroFill m.length) 0 ++ be64 (BitVec.ofNat 64 (8 * m.length))

/-- `pad(m)`; none where the message is longer than 2^61 − 1 bytes, which is rejected (R140, R145). -/
def pad (m : List Byte) : Option (List Byte) :=
  if m.length ≤ Config.maxLen then some (padBytes m) else none

end Sys2Proof.Machine
end

