-- ==== Sys2Proof/Machine/Formatter.lean ====
section
/-! DEFINITION. The Digest Formatter as a pure function of the hash state (43_formatter.md R190 to R195),
and the end-to-end function of the core (00_scope.md R2). -/

namespace Sys2Proof.Machine

/-- `DIGB[i]`, byte `i` of the digest, for `i` in 0..31 (R191). -/
def digb (h : Vector Word 8) (i : BitVec 5) : Byte :=
  (shr h[i.toNat / 4] (24 - 8 * (i.toNat % 4))).setWidth 8

/-- `nib(i)`, nibble `i` of the digest, for `i` in 0..63 (R192). -/
def nib (h : Vector Word 8) (i : BitVec 6) : BitVec 4 :=
  (shr h[i.toNat / 8] (28 - 4 * (i.toNat % 8))).setWidth 4

/-- `hexchar(v)` as its 7-bit ASCII code in an 8-bit field (R193; the codes are from
general knowledge, PRESUMED, log entry 12). -/
def hexchar (v : BitVec 4) : Byte :=
  if v.toNat ≤ 9 then 0x30 + v.setWidth 8 else 0x57 + v.setWidth 8

/-- `DIGX[i]`, character `i` of the digest, for `i` in 0..63 (R192). -/
def digx (h : Vector Word 8) (i : BitVec 6) : Byte := hexchar (nib h i)

/-- `format_bytes(H)`: `be32(H[0]) ‖ ... ‖ be32(H[7])` (R191). -/
def formatBytes (h : Vector Word 8) : List Byte := h.toList.flatMap be32

/-- `format_hex(H)`: the 64 characters (R192). -/
def formatHex (h : Vector Word 8) : List Byte :=
  (List.range 64).map (fun i => digx h (BitVec.ofNat 6 i))

/-- `sha256(m) = format(compress(pad(m)))`; none for a message outside the domain (R2, R211). -/
def sha256 (m : List Byte) : Option (List Byte) :=
  ((pad m).bind compress).map formatHex

end Sys2Proof.Machine
end

