-- ==== Sys2Proof/Machine/Operands.lean ====
section
/-! DEFINITION. The operand forms of the commands: an index into one of the read-only spaces, and the
32-bit response data it selects (30_encoding.md R83; 20_memory.md R50, R58). The byte operand of DATA is
used as it stands. -/

namespace Sys2Proof.Machine

/-- `H[i]`, the data of RDW (44_commands.md R206). -/
def State.word (s : State) (i : BitVec 3) : Word := s.H[i.toNat]

/-- `zext_32(DIGB[i])`, the data of RDB (R207). -/
def State.digestByte (s : State) (i : BitVec 5) : Word := (digb s.H i).setWidth 32

/-- `zext_32(DIGX[i])`, the data of RDX (R208). -/
def State.digestChar (s : State) (i : BitVec 6) : Word := (digx s.H i).setWidth 32

/-- `SR[n]`, the data of RDSR, none for the reserved numbers (10_state.md R33). -/
def State.statusReg (s : State) (n : BitVec 3) : Option Word :=
  match n.toNat with
  | 0 => some s.sr0
  | 1 => some s.sr1
  | 2 => some s.sr2
  | 3 => some s.sr3
  | 4 => some s.sr4
  | _ => none

end Sys2Proof.Machine
end

