-- ==== Sys2Proof/Machine/Reads.lean ====
section
/-! DEFINITION. The commands that read: RDW, RDB, RDX and RDSR (44_commands.md R206 to R209). -/

namespace Sys2Proof.Machine

/-- `RDW i` (R206). -/
def execRdw (i : BitVec 3) (s : State) : Result :=
  inDone s (fun s => .next (respond (s.word i) s))

/-- `RDB i` (R207). -/
def execRdb (i : BitVec 5) (s : State) : Result :=
  inDone s (fun s => .next (respond (s.digestByte i) s))

/-- `RDX i` (R208). -/
def execRdx (i : BitVec 6) (s : State) : Result :=
  inDone s (fun s => .next (respond (s.digestChar i) s))

/-- `RDSR n` (R209), in every phase. The numbers 5, 6, 7 that the operand's type leaves room for are
illegal commands (30_encoding.md R84); the decoder never makes one (log entry 8). -/
def execRdsr (n : BitVec 3) (s : State) : Result :=
  match s.statusReg n with
  | some v => .next (respond v s)
  | none => illegalCommand s

end Sys2Proof.Machine
end

