-- ==== Sys2Proof/Machine/Session.lean ====
section
/-! DEFINITION. The commands that every phase allows and that carry no data: NOP and INIT
(44_commands.md R201, R202). -/

namespace Sys2Proof.Machine

/-- `NOP` (R201): no state change; response data 0. Phase ERROR ignores it, which is the same. -/
def execNop (s : State) : Result := .next (respond 0 s)

/-- `INIT` (R202): a new invocation, from any phase; `V`, `W` and `BUF` are not touched. -/
def execInit (s : State) : Result := .next (respond 0 (initialise s))

end Sys2Proof.Machine
end

