-- ==== Sys2Proof/Machine/Dispatch.lean ====
section
/-! DEFINITION. One arm per command of spec/opcode_table.json. -/

namespace Sys2Proof.Machine

def exec (i : Instr) (s : State) : Host.Outcome State Fault Refusal :=
  match i with
  | .nop => Sys2Proof.Machine.execNop s
  | .init => Sys2Proof.Machine.execInit s
  | .data b => Sys2Proof.Machine.execData b s
  | .final => Sys2Proof.Machine.execFinal s
  | .endraw => Sys2Proof.Machine.execEndraw s
  | .rdw k => Sys2Proof.Machine.execRdw k s
  | .rdb k => Sys2Proof.Machine.execRdb k s
  | .rdx k => Sys2Proof.Machine.execRdx k s
  | .rdsr n => Sys2Proof.Machine.execRdsr n s

end Sys2Proof.Machine
end

