-- ==== Sys2Proof/Machine/Sequencer.lean ====
section
/-! DEFINITION. The micro-step sequencer of one block compression (42_compressor.md R173,
10_state.md R32). The commands take a whole block as one step; this is the finer description, which
`step` follows while `SEQ` is not idle (DESIGN CHOICE, log entry 7). -/

namespace Sys2Proof.Machine

/-- `SEQ <- (S_LOAD, 0)`: a block compression begins (R173). -/
def beginBlock (s : State) : State := { s with SEQ := ⟨.load, 0⟩ }

/-- One micro-step of `S_LOAD`: `W[t] <- MemRead(BUF, 4·t, 4)`, `t` in 0..15. -/
def microLoad (s : State) : Result :=
  if s.SEQ.t.toNat < 16 then
    match s.BUF.readWord (4 * s.SEQ.t.toNat) with
    | .error a => .fault (.unwrittenByte a)
    | .ok w =>
      .next { s with
        W := setW s.W s.SEQ.t w
        SEQ := if s.SEQ.t = 15 then ⟨.expand, 16⟩ else ⟨.load, s.SEQ.t + 1⟩ }
  else .fault (.seqRange s.SEQ)

/-- One micro-step of `S_EXPAND`, `t` in 16..63. -/
def microExpand (s : State) : Result :=
  if 16 ≤ s.SEQ.t.toNat then
    .next { s with
      W := expandStep s.W s.SEQ.t
      SEQ := if s.SEQ.t = 63 then ⟨.vinit, 0⟩ else ⟨.expand, s.SEQ.t + 1⟩ }
  else .fault (.seqRange s.SEQ)

/-- The micro-step of `S_VINIT`: `V[i] <- H[i]` for all `i`. -/
def microVinit (s : State) : Result :=
  if s.SEQ.t = 0 then .next { s with V := s.H, SEQ := ⟨.round, 0⟩ } else .fault (.seqRange s.SEQ)

/-- One micro-step of `S_ROUND`: one round with `K[t]`, `W[t]`, `t` in 0..63. -/
def microRound (s : State) : Result :=
  .next { s with
    V := roundStep s.W s.V s.SEQ.t
    SEQ := if s.SEQ.t = 63 then ⟨.add, 0⟩ else ⟨.round, s.SEQ.t + 1⟩ }

/-- The micro-step of `S_ADD`: the state update, `BLKCNT <- BLKCNT + 1`, `FILL <- 0`. -/
def microAdd (s : State) : Result :=
  if s.SEQ.t = 0 then
    .next { s with H := feedForward s.H s.V, BLKCNT := s.BLKCNT + 1, FILL := 0, SEQ := Sequencer.home }
  else .fault (.seqRange s.SEQ)

/-- One micro-step (the table of R173); an idle sequencer stays as it is. -/
def microStep (s : State) : Result :=
  match s.SEQ.stage with
  | .idle => .next s
  | .load => microLoad s
  | .expand => microExpand s
  | .vinit => microVinit s
  | .round => microRound s
  | .add => microAdd s

end Sys2Proof.Machine
end

