-- ==== Sys2Proof/Machine/Port.lean ====
section
/-! DEFINITION. The command port: executing one command word (44_commands.md R200), and taking the next
event of the outside world (00_scope.md R7, 20_memory.md R59, 70_reset_and_hazards.md R270, R278). -/

namespace Sys2Proof.Machine

/-- `execute(cmd)` (R200): a legal word runs its command, an illegal one is an illegal command. The check
of phase ERROR that comes first stands in each of the two. -/
def executeWord (w : Cmd) (s : State) : Result :=
  match decode w with
  | .ok i => exec i s
  | .error _ => illegalCommand s

/-- One step. A hardware reset is taken at any time, in the middle of a block too. While the sequencer
runs, no command is accepted and one micro-step is made (42_compressor.md R173). An idle ENGINE takes the
next command word; with none presented it holds its state (60_exceptions.md R258). -/
def takeEvent (s : State) : Result :=
  match s.inputs with
  | .reset :: rest => .next (hardwareReset { s with inputs := rest })
  | .command w :: rest =>
    if s.SEQ.stage = .idle then executeWord w { s with inputs := rest } else microStep s
  | [] => if s.SEQ.stage = .idle then .next s else microStep s

/-- The state in which the next event is this command word, before all others, and the sequencer is at
rest so that the word is accepted. -/
def presentWord (w : Cmd) (s : State) : State :=
  { s with inputs := .command w :: s.inputs, SEQ := Sequencer.home }

end Sys2Proof.Machine
end

