-- ==== Sys2Proof/Machine/Step.lean ====
section
/-! DEFINITION. One step of the machine, and the state in which a given table word is the next command. -/

namespace Sys2Proof.Machine

/-- One step (Machine/Port.lean says what it does). -/
def step (s : State) : Host.Outcome State Fault Refusal := takeEvent s

/-- `s` with the instruction of `nbits` bits `w` presented as the HOST's next command: the bits above
`nbits` are 0 (log entry 1). -/
def State.withFetchWord (s : State) (nbits w : Nat) : State :=
  presentWord (BitVec.ofNat 16 (w % 2 ^ nbits)) s

end Sys2Proof.Machine
end

