-- ==== Sys2Proof/Machine/Pseudo.lean ====
section
/-! DEFINITION. Programs as the HOST issues them: a straight list of lines, and the pseudo-commands with
their expansions (30_encoding.md R87, R88). They are lists of commands and add nothing to the machine. -/

namespace Sys2Proof.Machine

/-- A line of a program: a command by its mnemonic, or a bare command word, legal or not (R87). -/
inductive Line where
  | cmd (i : Instr)
  | raw (w : Cmd)
deriving DecidableEq, Repr

/-- The command word of a line (R87). -/
def Line.word : Line → Cmd
  | .cmd i => encode i
  | .raw w => w

/-- The events of a program, issued from top to bottom (R87). -/
def issueLines (p : List Line) : List HostEvent := p.map (fun l => .command l.word)

/-- The events of a list of commands. -/
def issue (p : List Instr) : List HostEvent := p.map (fun i => .command (encode i))

/-- `MSG b0, b1, ...` (R88). -/
def msg (m : List Byte) : List Instr := m.map .data

/-- `MSG "text"` (R88): one byte a character, its ASCII code. R88 gives no byte for a character that has no
ASCII code; a text with one has no expansion here (DESIGN CHOICE, log entry 17). -/
def msgText (t : String) : Option (List Instr) :=
  if t.toList.all (fun c => decide (c.toNat < 128)) then
    some (msg (t.toList.map (fun c => BitVec.ofNat 8 c.toNat)))
  else none

/-- `SHA256 m` (R88). -/
def sha256Seq (m : List Byte) : List Instr := .init :: (msg m ++ [.final])

/-- `COMPRESS p` (R88). -/
def compressSeq (p : List Byte) : List Instr := .init :: (msg p ++ [.endraw])

/-- `RDSTATE` (R88). -/
def rdState : List Instr := (List.range 8).map (fun i => .rdw (BitVec.ofNat 3 i))

/-- `RDDIGEST` (R88). -/
def rdDigest : List Instr := (List.range 32).map (fun i => .rdb (BitVec.ofNat 5 i))

/-- `RDHEX` (R88). -/
def rdHex : List Instr := (List.range 64).map (fun i => .rdx (BitVec.ofNat 6 i))

end Sys2Proof.Machine
end

