-- ==== Sys2Proof/Safety.lean ====
section
/-! DEFINITION. The terms claims are stated in: the invariants of 10_state.md R37, a message partly
absorbed, and two states that no HOST can tell apart (10_state.md R38, R40). -/

namespace Sys2Proof.Machine

/-- The counters while a message is being received: `FILL = LEN mod 64` and `BLKCNT = floor(LEN / 64)`
(R37 b). They hold after a successful ENDRAW too, where `FILL = 0` and `LEN = 64·BLKCNT` (R37 e). -/
def MidCounts (s : State) : Prop :=
  s.FILL.toNat = s.LEN.toNat % 64 ∧ s.BLKCNT.toNat = s.LEN.toNat / 64

/-- The counters after FINAL: `FILL = 0` and `BLKCNT = ceil((LEN + 9) / 64)` (R37 d). -/
def PaddedCounts (s : State) : Prop :=
  s.FILL = 0 ∧ s.BLKCNT.toNat = (s.LEN.toNat + 9 + 63) / 64

/-- The counters in each phase (R37 b, d, e, f). -/
def CountsOk (s : State) : Prop :=
  match s.PHASE with
  | .ready => MidCounts s
  | .done => PaddedCounts s ∨ (s.FILL = 0 ∧ MidCounts s)
  | .error => MidCounts s ∨ PaddedCounts s

/-- What holds at every command boundary. A safe run is one whose states meet it; from such a state no
step stops the machine. -/
structure BoundaryInv (s : State) : Prop where
  /-- `SEQ = (S_IDLE, 0)` (R37 g). -/
  seqHome : s.SEQ = Sequencer.home
  /-- `ERR != 0` exactly when `PHASE = ERROR` (R30). -/
  errPhase : s.ERR ≠ .none ↔ s.PHASE = .error
  /-- `BUF` is in canonical form. -/
  bufWf : s.BUF.wf
  /-- Every byte below `FILL` has been written (R25). -/
  written : ∀ a, a < s.FILL.toNat → (s.BUF.read a).isSome = true
  /-- The counters agree with the phase. -/
  counts : CountsOk s
  /-- The latest response shows the outputs as they still are (R31). -/
  outputs : ∀ r, s.resp = some r → r.done = s.doneOut ∧ r.err = s.errOut

/-- The step of the machine goes on. -/
def Proceeds (s : State) : Prop := ∃ t, step s = .next t

/-- The ENGINE, in phase READY, has received exactly the message bytes `m` since the last INIT or reset:
the counters (R27, R37 b), the hash state (R37 c), and the bytes of the block being assembled (R25, R53). -/
structure Absorbed (s : State) (m : List Byte) : Prop where
  phase : s.PHASE = .ready
  err : s.ERR = .none
  idle : s.SEQ.stage = .idle
  len : s.LEN.toNat = m.length
  fill : s.FILL.toNat = m.length % 64
  blkcnt : s.BLKCNT.toNat = m.length / 64
  hash : s.H = compressPrefix m (m.length / 64)
  bytes : ∀ j, j < m.length % 64 → s.BUF.read j = m[64 * (m.length / 64) + j]?

/-- Two states that agree on everything but scratch: `V`, `W`, the bytes of `BUF` at and above `FILL`
(R38), and the number of the reset that drew the free values. -/
structure SameButScratch (s t : State) : Prop where
  H : s.H = t.H
  FILL : s.FILL = t.FILL
  LEN : s.LEN = t.LEN
  BLKCNT : s.BLKCNT = t.BLKCNT
  PHASE : s.PHASE = t.PHASE
  ERR : s.ERR = t.ERR
  SEQ : s.SEQ = t.SEQ
  inputs : s.inputs = t.inputs
  resp : s.resp = t.resp
  bytes : ∀ a, a < s.FILL.toNat → s.BUF.read a = t.BUF.read a

end Sys2Proof.Machine
end

