-- ==== Sys2Proof/Certificates/Slice0/Obligations.lean ====
section
/-! DEFINITION. The statements for the provers. Each docstring names the rule of the spec it formalises. -/

open Sys2Proof Sys2Proof.Machine

/-! ### Encoding -/

/-- No bit of an encoding is dropped: the word of a well-formed command decodes to that command, with
every operand at every value its range admits (30_encoding.md section 2). -/
def Obligations.EncodedCommandDecodesToItself : Prop :=
  ∀ i : Instr, i.wf = true → decode (encode i) = .ok i

/-- Every word the decoder accepts is the encoding of the one command it names, and that command is well
formed: no two words share a command (30_encoding.md sections 2 and 4). -/
def Obligations.DecodedWordIsItsOwnEncoding : Prop :=
  ∀ (w : Cmd) (i : Instr), decode w = .ok i → i.wf = true ∧ encode i = w

/-- The decoder accepts exactly the words that satisfy the legality predicate of R84, written out on the
word's number (`OP = cmd / 4096`, `RSV = cmd / 256 mod 16`, `IMM = cmd mod 256`), and there are 369 of
them among the 65,536. -/
def Obligations.LegalWordsAreThoseThatDecode : Prop :=
  (∀ w : Cmd, (∃ i, decode w = .ok i) ↔
    (w.toNat / 256 % 16 = 0 ∧
      ((w.toNat / 4096 ∈ [0x0, 0x1, 0x3, 0x4] ∧ w.toNat % 256 = 0)
        ∨ w.toNat / 4096 = 0x2
        ∨ (w.toNat / 4096 = 0x5 ∧ w.toNat % 256 ≤ 7)
        ∨ (w.toNat / 4096 = 0x6 ∧ w.toNat % 256 ≤ 31)
        ∨ (w.toNat / 4096 = 0x7 ∧ w.toNat % 256 ≤ 63)
        ∨ (w.toNat / 4096 = 0x8 ∧ w.toNat % 256 ≤ 4)))) ∧
  (∀ w : Cmd, legal w = true ↔ ∃ i, decode w = .ok i) ∧
  ((List.range 65536).countP (fun n => legal (BitVec.ofNat 16 n))) = 369

/-- A word of each command, written out from the opcode map, decodes to it, and the two named words of
R85 are NOP and illegal. -/
def Obligations.SampleWordsDecodeAsTheOpcodeMapSays : Prop :=
  decode 0b0000000000000000 = .ok .nop ∧ decode 0b0001000000000000 = .ok .init ∧
  decode 0b0010000001100001 = .ok (.data 0x61) ∧ decode 0b0011000000000000 = .ok .final ∧
  decode 0b0100000000000000 = .ok .endraw ∧ decode 0b0101000000000111 = .ok (.rdw 7) ∧
  decode 0b0110000000011111 = .ok (.rdb 31) ∧ decode 0b0111000000111111 = .ok (.rdx 63) ∧
  decode 0b1000000000000100 = .ok (.rdsr 4) ∧ decode 0b1111111111111111 = .error .reservedOp

/-! ### The step and the command frame -/

/-- A step executes the word presented: where the sequencer is at rest and the next event is a command word,
the step is `executeWord` of that word, whatever the word is, with that event taken off the list of inputs
(the list is the model's choice, log entry 1). So a word that decodes to `i` runs `exec i`, and an illegal
word raises `ERR_CMD` in READY and DONE and is ignored in ERROR. -/
def Obligations.StepRunsTheDecodedCommand : Prop :=
  ∀ (s : State) (w : Cmd) (rest : List HostEvent),
    s.inputs = .command w :: rest → s.SEQ.stage = .idle →
    step s = executeWord w { s with inputs := rest } ∧
    (∀ i, decode w = .ok i → step s = exec i { s with inputs := rest }) ∧
    (∀ e, decode w = .error e → s.PHASE ≠ .error → step s =
      .next { s with inputs := rest, PHASE := .error, ERR := .cmd, resp := some ⟨0, false, true⟩ }) ∧
    (∀ e, decode w = .error e → s.PHASE = .error → step s =
      .next { s with inputs := rest, resp := some ⟨0, false, true⟩ })

/-- An idle ENGINE with nothing presented holds its state (60_exceptions.md R258). That the wait is a step is
the model's choice (log entry 1). -/
def Obligations.IdleEngineHoldsItsState : Prop :=
  ∀ s : State, s.inputs = [] → s.SEQ.stage = .idle → step s = .next s

/-- The frame of every command (R200): phase ERROR first, then legality, then the phase the command needs,
then the command's own condition; an illegal word in READY or DONE raises `ERR_CMD`; a legal word in a phase
that does not allow it raises `ERR_SEQ`, whatever `LEN` and `FILL` hold; the response carries the outputs as
they stand after the command; and a command that raises changes nothing but `PHASE` and `ERR` and
answers 0. -/
def Obligations.CommandFrameChecksPhaseThenLegality : Prop :=
  ∀ (w : Cmd) (s : State),
    (s.PHASE = .error → w ≠ 0x1000 → (∀ n : BitVec 3, decode w ≠ .ok (.rdsr n)) →
      executeWord w s = .next { s with resp := some ⟨0, false, true⟩ }) ∧
    (s.PHASE ≠ .error → legal w = false →
      executeWord w s =
        .next { s with PHASE := .error, ERR := .cmd, resp := some ⟨0, false, true⟩ }) ∧
    (legal w = true → ∃ i, decode w = .ok i ∧ executeWord w s = exec i s) ∧
    (s.PHASE = .done →
      (∃ b, decode w = .ok (.data b)) ∨ decode w = .ok .final ∨ decode w = .ok .endraw →
      executeWord w s =
        .next { s with PHASE := .error, ERR := .seq, resp := some ⟨0, false, true⟩ }) ∧
    (s.PHASE = .ready →
      (∃ k, decode w = .ok (.rdw k)) ∨ (∃ k, decode w = .ok (.rdb k)) ∨
        (∃ k, decode w = .ok (.rdx k)) →
      executeWord w s =
        .next { s with PHASE := .error, ERR := .seq, resp := some ⟨0, false, true⟩ }) ∧
    (∀ t, executeWord w s = .next t →
      (∃ d, t.resp = some ⟨d, decide (t.PHASE = .done), decide (t.PHASE = .error)⟩) ∧
      (s.PHASE ≠ .error → t.PHASE = .error →
        t = { s with PHASE := .error, ERR := t.ERR, resp := some ⟨0, false, true⟩ } ∧ t.ERR ≠ .none))

/-- Every command that is executed produces one response; its data is the value read for a successful
RDW, RDB, RDX or RDSR and 0 for everything else, and its two bits are the outputs (R81). -/
def Obligations.EveryCommandAnswersTheValueReadOrZero : Prop :=
  ∀ (w : Cmd) (s t : State), executeWord w s = .next t →
    ∃ d, t.resp = some ⟨d, decide (t.PHASE = .done), decide (t.PHASE = .error)⟩ ∧
      d = (match decode w with
        | .ok (.rdw i) => if s.PHASE = .done then s.H[i.toNat] else 0
        | .ok (.rdb i) => if s.PHASE = .done then (digb s.H i).setWidth 32 else 0
        | .ok (.rdx i) => if s.PHASE = .done then (digx s.H i).setWidth 32 else 0
        | .ok (.rdsr n) => (s.statusReg n).getD 0
        | _ => 0)

/-! ### The commands, one by one -/

/-- `NOP` (R201), in every phase. -/
def Obligations.NopAnswersZeroAndChangesNothing : Prop :=
  (∀ w : Cmd, decode w = .ok .nop ↔ w = 0x0000) ∧
  ∀ s : State, exec .nop s =
    .next { s with resp := some ⟨0, decide (s.PHASE = .done), decide (s.PHASE = .error)⟩ }

/-- `INIT` (R202), in every phase: the registers of a new invocation, `V`, `W` and `BUF` untouched, the
response `(0, 0, 0)`; twice is the same as once; `RDSR 0` after it returns 0. (`SEQ` is put at rest too, as
R39 says.) -/
def Obligations.InitStartsAFreshInvocation : Prop :=
  (∀ w : Cmd, decode w = .ok .init ↔ w = 0x1000) ∧
  (∀ s : State, exec .init s =
    .next { s with H := IV, FILL := 0, LEN := 0, BLKCNT := 0, PHASE := .ready, ERR := .none,
                   SEQ := ⟨.idle, 0⟩, resp := some ⟨0, false, false⟩ }) ∧
  (∀ s t : State, exec .init s = .next t → exec .init t = .next t ∧ exec (.rdsr 0) t = .next t)

/-- `DATA b` (R203): every phase, the limit 2^61 − 1, a byte that leaves the block incomplete, and the
64th byte of a block, whose 63 earlier bytes stand in `BUF`. What `V`, `W` and the bytes of `BUF` at and above `FILL` hold
after the command is unspecified by R38; that they hold what is said here is the model's choice (log
entries 4 and 5). -/
def Obligations.DataStoresItsByteAndCompressesAFullBlock : Prop :=
  (∀ (w : Cmd) (b : Byte), decode w = .ok (.data b) ↔ w = 0x2000 + b.setWidth 16) ∧
  ∀ (b : Byte) (s : State),
    (s.PHASE = .error → exec (.data b) s = .next { s with resp := some ⟨0, false, true⟩ }) ∧
    (s.PHASE = .done → exec (.data b) s =
      .next { s with PHASE := .error, ERR := .seq, resp := some ⟨0, false, true⟩ }) ∧
    (s.PHASE = .ready → s.LEN.toNat = 2 ^ 61 - 1 → exec (.data b) s =
      .next { s with PHASE := .error, ERR := .len, resp := some ⟨0, false, true⟩ }) ∧
    (s.PHASE = .ready → s.LEN.toNat ≠ 2 ^ 61 - 1 → s.FILL.toNat < 63 → exec (.data b) s =
      .next { s with BUF := s.BUF.write s.FILL.toNat b, FILL := s.FILL + 1, LEN := s.LEN + 1,
                     resp := some ⟨0, false, false⟩ }) ∧
    (s.PHASE = .ready → s.LEN.toNat ≠ 2 ^ 61 - 1 → s.FILL.toNat = 63 →
      (∀ a, a < 63 → (s.BUF.read a).isSome = true) →
      ∃ B : Vector Byte 64,
        (∀ j (h : j < 64), some B[j] = if j = 63 then some b else s.BUF.read j) ∧
        exec (.data b) s =
          .next { s with BUF := s.BUF.write 63 b, FILL := 0, LEN := s.LEN + 1,
                         BLKCNT := s.BLKCNT + 1, H := compressBlock s.H B, W := schedule B,
                         V := roundsAll (schedule B) s.H, resp := some ⟨0, false, false⟩ })

/-- `FINAL` in phase READY with room for the length field (`FILL` at most 55): one block, the message
bytes, `0x80`, zeros, `be64(8·LEN)`, is written and compressed (R204, 41_padder.md R147). What `V`, `W` and the bytes of `BUF` at and above `FILL` hold
after the command is unspecified by R38; that they hold what is said here is the model's choice (log
entries 4 and 5). -/
def Obligations.FinalCompletesOneBlock : Prop :=
  ∀ s : State, s.PHASE = .ready → s.FILL.toNat ≤ 55 →
    (∀ a, a < s.FILL.toNat → (s.BUF.read a).isSome = true) →
    ∃ (B : Vector Byte 64) (m : Memory),
      (∀ j (h : j < 64), some B[j] =
        if j < s.FILL.toNat then s.BUF.read j
        else if j = s.FILL.toNat then some 0x80
        else if j < 56 then some 0
        else (be64 (BitVec.ofNat 64 (8 * s.LEN.toNat)))[j - 56]?) ∧
      (∀ j (h : j < 64), m.read j = some B[j]) ∧
      exec .final s =
        .next { s with BUF := m, FILL := 0, BLKCNT := s.BLKCNT + 1, H := compressBlock s.H B,
                       W := schedule B, V := roundsAll (schedule B) s.H, PHASE := .done,
                       resp := some ⟨0, true, false⟩ }

/-- `FINAL` in phase READY without that room (`FILL` 56 to 63): a block of the message bytes, `0x80` and
zeros, and then a block of 56 zeros and `be64(8·LEN)` (R204, 41_padder.md R147). What `V`, `W` and the bytes of `BUF` at and above `FILL` hold
after the command is unspecified by R38; that they hold what is said here is the model's choice (log
entries 4 and 5). -/
def Obligations.FinalCompletesTwoBlocks : Prop :=
  ∀ s : State, s.PHASE = .ready → 56 ≤ s.FILL.toNat →
    (∀ a, a < s.FILL.toNat → (s.BUF.read a).isSome = true) →
    ∃ (A B : Vector Byte 64) (m : Memory),
      (∀ j (h : j < 64), some A[j] =
        if j < s.FILL.toNat then s.BUF.read j
        else if j = s.FILL.toNat then some 0x80
        else some 0) ∧
      (∀ j (h : j < 64), some B[j] =
        if j < 56 then some 0 else (be64 (BitVec.ofNat 64 (8 * s.LEN.toNat)))[j - 56]?) ∧
      (∀ j (h : j < 64), m.read j = some B[j]) ∧
      exec .final s =
        .next { s with BUF := m, FILL := 0, BLKCNT := s.BLKCNT + 2,
                       H := compressBlock (compressBlock s.H A) B, W := schedule B,
                       V := roundsAll (schedule B) (compressBlock s.H A), PHASE := .done,
                       resp := some ⟨0, true, false⟩ }

/-- `FINAL` outside phase READY: `ERR_SEQ` in DONE, ignored in ERROR; and its one word is `0x3000`. -/
def Obligations.FinalOutsideReadyIsRefused : Prop :=
  (∀ w : Cmd, decode w = .ok .final ↔ w = 0x3000) ∧
  ∀ s : State,
    (s.PHASE = .done → exec .final s =
      .next { s with PHASE := .error, ERR := .seq, resp := some ⟨0, false, true⟩ }) ∧
    (s.PHASE = .error → exec .final s = .next { s with resp := some ⟨0, false, true⟩ })

/-- `ENDRAW` (R205): every phase; success exactly when `FILL = 0`, nothing compressed by it; straight after
INIT it leaves `H = IV`; and after the bytes `p` were received it leaves `H = compress(p)`. -/
def Obligations.EndrawEndsAWholeNumberOfBlocks : Prop :=
  (∀ w : Cmd, decode w = .ok .endraw ↔ w = 0x4000) ∧
  (∀ s : State,
    (s.PHASE = .error → exec .endraw s = .next { s with resp := some ⟨0, false, true⟩ }) ∧
    (s.PHASE = .done → exec .endraw s =
      .next { s with PHASE := .error, ERR := .seq, resp := some ⟨0, false, true⟩ }) ∧
    (s.PHASE = .ready → s.FILL ≠ 0 → exec .endraw s =
      .next { s with PHASE := .error, ERR := .align, resp := some ⟨0, false, true⟩ }) ∧
    (s.PHASE = .ready → s.FILL = 0 → exec .endraw s =
      .next { s with PHASE := .done, resp := some ⟨0, true, false⟩ })) ∧
  (∀ s t : State, exec .init s = .next t → ∃ u, exec .endraw t = .next u ∧ u.H = IV ∧ u.PHASE = .done) ∧
  (∀ (s : State) (p : List Byte), Absorbed s p → s.FILL = 0 →
    ∃ t, exec .endraw s = .next t ∧ compress p = some t.H)

/-- `RDW i` (R206): every phase; an index of 8 or more is an illegal word. -/
def Obligations.RdwReadsAStateWord : Prop :=
  (∀ (w : Cmd) (i : BitVec 3), decode w = .ok (.rdw i) ↔ w = 0x5000 + i.setWidth 16) ∧
  (∀ (w : Cmd) (s : State), 0x5008 ≤ w.toNat → w.toNat < 0x6000 → s.PHASE ≠ .error →
    executeWord w s =
      .next { s with PHASE := .error, ERR := .cmd, resp := some ⟨0, false, true⟩ }) ∧
  ∀ (i : BitVec 3) (s : State),
    (s.PHASE = .done → exec (.rdw i) s = .next { s with resp := some ⟨s.H[i.toNat], true, false⟩ }) ∧
    (s.PHASE = .ready → exec (.rdw i) s =
      .next { s with PHASE := .error, ERR := .seq, resp := some ⟨0, false, true⟩ }) ∧
    (s.PHASE = .error → exec (.rdw i) s = .next { s with resp := some ⟨0, false, true⟩ })

/-- `RDB i` (R207): every phase; bits 31:8 of the data are 0; an index of 32 or more is an illegal word. -/
def Obligations.RdbReadsADigestByte : Prop :=
  (∀ (w : Cmd) (i : BitVec 5), decode w = .ok (.rdb i) ↔ w = 0x6000 + i.setWidth 16) ∧
  (∀ (w : Cmd) (s : State), 0x6020 ≤ w.toNat → w.toNat < 0x7000 → s.PHASE ≠ .error →
    executeWord w s =
      .next { s with PHASE := .error, ERR := .cmd, resp := some ⟨0, false, true⟩ }) ∧
  ∀ (i : BitVec 5) (s : State),
    (s.PHASE = .done → ∃ d : Word,
      d.toNat = s.H[i.toNat / 4].toNat / 2 ^ (24 - 8 * (i.toNat % 4)) % 256 ∧
      exec (.rdb i) s = .next { s with resp := some ⟨d, true, false⟩ }) ∧
    (s.PHASE = .ready → exec (.rdb i) s =
      .next { s with PHASE := .error, ERR := .seq, resp := some ⟨0, false, true⟩ }) ∧
    (s.PHASE = .error → exec (.rdb i) s = .next { s with resp := some ⟨0, false, true⟩ })

/-- `RDX i` (R208): every phase; the data is the code of the hexadecimal digit of nibble `i`, one of the
sixteen codes; an index of 64 or more is an illegal word. -/
def Obligations.RdxReadsADigestCharacter : Prop :=
  (∀ (w : Cmd) (i : BitVec 6), decode w = .ok (.rdx i) ↔ w = 0x7000 + i.setWidth 16) ∧
  (∀ (w : Cmd) (s : State), 0x7040 ≤ w.toNat → w.toNat < 0x8000 → s.PHASE ≠ .error →
    executeWord w s =
      .next { s with PHASE := .error, ERR := .cmd, resp := some ⟨0, false, true⟩ }) ∧
  ∀ (i : BitVec 6) (s : State),
    (s.PHASE = .done → ∃ (d : Word) (v : Nat),
      v = s.H[i.toNat / 8].toNat / 2 ^ (28 - 4 * (i.toNat % 8)) % 16 ∧
      d.toNat = (if v ≤ 9 then 0x30 + v else 0x57 + v) ∧
      exec (.rdx i) s = .next { s with resp := some ⟨d, true, false⟩ }) ∧
    (s.PHASE = .ready → exec (.rdx i) s =
      .next { s with PHASE := .error, ERR := .seq, resp := some ⟨0, false, true⟩ }) ∧
    (s.PHASE = .error → exec (.rdx i) s = .next { s with resp := some ⟨0, false, true⟩ })

/-- `RDSR n` (R209), in every phase: the status register, no side effect; a number of 5 or more is an
illegal word. -/
def Obligations.RdsrReadsAStatusRegister : Prop :=
  (∀ (w : Cmd) (n : BitVec 3), n.toNat ≤ 4 → (decode w = .ok (.rdsr n) ↔ w = 0x8000 + n.setWidth 16)) ∧
  (∀ (w : Cmd) (s : State), 0x8005 ≤ w.toNat → w.toNat < 0x9000 →
    (s.PHASE ≠ .error → executeWord w s =
      .next { s with PHASE := .error, ERR := .cmd, resp := some ⟨0, false, true⟩ }) ∧
    (s.PHASE = .error → executeWord w s = .next { s with resp := some ⟨0, false, true⟩ })) ∧
  (∀ (n : BitVec 3) (s : State), n.toNat ≤ 4 →
    ∃ v, s.statusReg n = some v ∧ exec (.rdsr n) s =
      .next { s with resp := some ⟨v, decide (s.PHASE = .done), decide (s.PHASE = .error)⟩ })

/-! ### Status registers and counters -/

/-- `SR0` (R33): `PHASE + 16·ERR + 256·FILL`, its reserved bits 0, and 0 at reset; the numbers 5 to 255 name
no register, and the words that ask for one are illegal. -/
def Obligations.StatusWordHoldsPhaseErrAndFill : Prop :=
  (∀ s : State, ∃ v, s.statusReg 0 = some v ∧
    v.toNat = s.PHASE.code.toNat + 16 * s.ERR.code.toNat + 256 * s.FILL.toNat ∧
    v.extractLsb' 0 2 = s.PHASE.code ∧ v.extractLsb' 2 2 = 0 ∧ v.extractLsb' 4 3 = s.ERR.code ∧
    v.extractLsb' 7 1 = 0 ∧ v.extractLsb' 8 6 = s.FILL ∧ v.extractLsb' 14 18 = 0) ∧
  (∀ (s : State) (n : BitVec 3), s.statusReg n = none ↔ 5 ≤ n.toNat) ∧
  (∀ w : Cmd, 0x8005 ≤ w.toNat → w.toNat ≤ 0x80ff → legal w = false) ∧
  State.reset.statusReg 0 = some 0

/-- `SR1` and `SR2` are the two halves of `LEN`, and only DATA and INIT change `LEN` (R34); `SR3` and `SR4`
are the two halves of `BLKCNT` (R35); all four are 0 at reset and their reserved bits are 0. -/
def Obligations.CounterRegistersHoldLenAndBlkcnt : Prop :=
  (∀ s : State, ∃ lo hi, s.statusReg 1 = some lo ∧ s.statusReg 2 = some hi ∧
    lo.toNat = s.LEN.toNat % 2 ^ 32 ∧ hi.toNat = s.LEN.toNat / 2 ^ 32 ∧ hi.extractLsb' 29 3 = 0) ∧
  (∀ s : State, ∃ lo hi, s.statusReg 3 = some lo ∧ s.statusReg 4 = some hi ∧
    lo.toNat = s.BLKCNT.toNat % 2 ^ 32 ∧ hi.toNat = s.BLKCNT.toNat / 2 ^ 32 ∧
    hi.extractLsb' 24 8 = 0) ∧
  (∀ n : BitVec 3, 1 ≤ n.toNat → n.toNat ≤ 4 → State.reset.statusReg n = some 0) ∧
  (∀ (w : Cmd) (s t : State), executeWord w s = .next t → t.LEN ≠ s.LEN →
    w = 0x1000 ∨ ∃ b, decode w = .ok (.data b))

/-- `LEN` never wraps: a command leaves it, counts one DATA byte, or is INIT, and DATA at 2^61 − 1 raises
`ERR_LEN` and leaves it (10_state.md section 3). -/
def Obligations.LenCountsDataBytesAndNeverWraps : Prop :=
  ∀ (w : Cmd) (s t : State), executeWord w s = .next t →
    t.LEN = s.LEN ∨ (w = 0x1000 ∧ t.LEN = 0) ∨
    ((∃ b, decode w = .ok (.data b)) ∧ t.LEN.toNat = s.LEN.toNat + 1 ∧ t.PHASE = .ready)

/-- `BLKCNT` never wraps: from a state that meets the invariant a step leaves it, clears it, or counts one
or two blocks, and it is never above 2^55 + 1 (10_state.md section 3). -/
def Obligations.BlkcntNeverWraps : Prop :=
  ∀ s t : State, BoundaryInv s → step s = .next t →
    s.BLKCNT.toNat ≤ 2 ^ 55 + 1 ∧
    (t.BLKCNT = 0 ∨ t.BLKCNT = s.BLKCNT ∨ t.BLKCNT.toNat = s.BLKCNT.toNat + 1 ∨
      t.BLKCNT.toNat = s.BLKCNT.toNat + 2)

/-! ### Reset -/

/-- Reset and INIT put the same values in the same places (R39): at `State.reset`, after a hardware reset
from any state, and after INIT in any phase; INIT leaves `V`, `W` and `BUF` unchanged. -/
def Obligations.ResetAndInitPutTheSameValues : Prop :=
  (∀ s t : State,
    (t = State.reset ∨ t = hardwareReset s ∨ exec .init s = .next t) →
    t.H = #v[0x6a09e667, 0xbb67ae85, 0x3c6ef372, 0xa54ff53a, 0x510e527f, 0x9b05688c, 0x1f83d9ab,
      0x5be0cd19] ∧
    t.FILL = 0 ∧ t.LEN = 0 ∧ t.BLKCNT = 0 ∧ t.PHASE = .ready ∧ t.ERR = .none ∧ t.SEQ = ⟨.idle, 0⟩ ∧
    t.doneOut = false ∧ t.errOut = false ∧
    ∀ n : BitVec 3, n.toNat ≤ 4 → t.statusReg n = some 0) ∧
  (∀ s t : State, exec .init s = .next t → t.V = s.V ∧ t.W = s.W ∧ t.BUF = s.BUF)

/-- A hardware reset is taken at any time, in the middle of a block compression too, and the state after
it is the reset state whatever was in progress, up to the unspecified scratch registers (R270). That no
response is held and that the other events stay presented are the model's (log entries 1 and 2). -/
def Obligations.HardwareResetIsTakenAtAnyTime : Prop :=
  ∀ (s : State) (rest : List HostEvent), s.inputs = .reset :: rest →
    ∃ t, step s = .next t ∧ SameButScratch t { State.reset with inputs := rest }

/-! ### Errors -/

/-- The error entry (R248): `PHASE` and `ERR` are written and the response is `(0, 0, 1)`; every command
that takes the ENGINE into phase ERROR leaves all else as it was. -/
def Obligations.ErrorEntryIsPrecise : Prop :=
  (∀ (c : ErrCode) (s : State),
    raiseErr c s = { s with PHASE := .error, ERR := c, resp := some ⟨0, false, true⟩ }) ∧
  (∀ (w : Cmd) (s t : State), s.PHASE ≠ .error → executeWord w s = .next t → t.PHASE = .error →
    t.H = s.H ∧ t.V = s.V ∧ t.W = s.W ∧ t.BUF = s.BUF ∧ t.FILL = s.FILL ∧ t.LEN = s.LEN ∧
    t.BLKCNT = s.BLKCNT ∧ t.SEQ = s.SEQ ∧ t.inputs = s.inputs ∧ t.resp = some ⟨0, false, true⟩)

/-- The four causes and their codes (R241): a command that takes the ENGINE into phase ERROR does so for
exactly one of them, and `ERR` then holds its code. -/
def Obligations.EachErrorHasItsCause : Prop :=
  (ErrCode.none.code.toNat = 0 ∧ ErrCode.align.code.toNat = 1 ∧ ErrCode.len.code.toNat = 2 ∧
    ErrCode.seq.code.toNat = 3 ∧ ErrCode.cmd.code.toNat = 4 ∧ ∀ c : ErrCode, c.code.toNat ≤ 4) ∧
  (∀ (w : Cmd) (s t : State), s.PHASE ≠ .error → executeWord w s = .next t →
    ((t.PHASE = .error ∧ t.ERR = .align) ↔
      (decode w = .ok .endraw ∧ s.PHASE = .ready ∧ s.FILL ≠ 0)) ∧
    ((t.PHASE = .error ∧ t.ERR = .len) ↔
      ((∃ b, decode w = .ok (.data b)) ∧ s.PHASE = .ready ∧ s.LEN.toNat = 2 ^ 61 - 1)) ∧
    ((t.PHASE = .error ∧ t.ERR = .seq) ↔
      ((((∃ b, decode w = .ok (.data b)) ∨ decode w = .ok .final ∨ decode w = .ok .endraw) ∧
          s.PHASE = .done) ∨
        (((∃ i, decode w = .ok (.rdw i)) ∨ (∃ i, decode w = .ok (.rdb i)) ∨
          (∃ i, decode w = .ok (.rdx i))) ∧ s.PHASE = .ready))) ∧
    ((t.PHASE = .error ∧ t.ERR = .cmd) ↔ legal w = false) ∧
    (t.PHASE = .error → t.ERR ≠ .none))

/-- Phase ERROR (R213): INIT leaves it, RDSR reads, and every other word, legal or not, is ignored. -/
def Obligations.PhaseErrorAdmitsOnlyInitAndRdsr : Prop :=
  ∀ (w : Cmd) (s : State), s.PHASE = .error →
    (decode w = .ok .init → ∃ t, executeWord w s = .next t ∧ exec .init s = .next t ∧
      t.PHASE = .ready ∧ t.resp = some ⟨0, false, false⟩) ∧
    (∀ n, decode w = .ok (.rdsr n) → ∃ v, s.statusReg n = some v ∧
      executeWord w s = .next { s with resp := some ⟨v, false, true⟩ }) ∧
    (decode w ≠ .ok .init → (∀ n, decode w ≠ .ok (.rdsr n)) →
      executeWord w s = .next { s with resp := some ⟨0, false, true⟩ })

/-- Errors do not nest (R251): from phase ERROR a step keeps the phase and the code of the first error,
unless the event is INIT or a hardware reset, which clear both. -/
def Obligations.ErrorsDoNotNest : Prop :=
  ∀ s : State, s.PHASE = .error → s.SEQ.stage = .idle → ∃ t, step s = .next t ∧
    ((∃ rest, s.inputs = .command 0x1000 :: rest ∨ s.inputs = .reset :: rest) →
      t.PHASE = .ready ∧ t.ERR = .none) ∧
    ((¬ ∃ rest, s.inputs = .command 0x1000 :: rest ∨ s.inputs = .reset :: rest) →
      t.PHASE = .error ∧ t.ERR = s.ERR)

/-- The phase transitions, complete (R215): the phase after a command and, in an error cell, the code. -/
def Obligations.PhaseTransitionsAreTheTable : Prop :=
  (∀ (w : Cmd) (s t : State), executeWord w s = .next t →
    (s.PHASE = .ready →
      (match decode w with
        | .ok .nop => t.PHASE = .ready
        | .ok .init => t.PHASE = .ready
        | .ok (.data _) =>
          if s.LEN.toNat = 2 ^ 61 - 1 then t.PHASE = .error ∧ t.ERR = .len else t.PHASE = .ready
        | .ok .final => t.PHASE = .done
        | .ok .endraw => if s.FILL = 0 then t.PHASE = .done else t.PHASE = .error ∧ t.ERR = .align
        | .ok (.rdw _) => t.PHASE = .error ∧ t.ERR = .seq
        | .ok (.rdb _) => t.PHASE = .error ∧ t.ERR = .seq
        | .ok (.rdx _) => t.PHASE = .error ∧ t.ERR = .seq
        | .ok (.rdsr _) => t.PHASE = .ready
        | .error _ => t.PHASE = .error ∧ t.ERR = .cmd)) ∧
    (s.PHASE = .done →
      (match decode w with
        | .ok .nop => t.PHASE = .done
        | .ok .init => t.PHASE = .ready
        | .ok (.data _) => t.PHASE = .error ∧ t.ERR = .seq
        | .ok .final => t.PHASE = .error ∧ t.ERR = .seq
        | .ok .endraw => t.PHASE = .error ∧ t.ERR = .seq
        | .ok (.rdw _) => t.PHASE = .done
        | .ok (.rdb _) => t.PHASE = .done
        | .ok (.rdx _) => t.PHASE = .done
        | .ok (.rdsr _) => t.PHASE = .done
        | .error _ => t.PHASE = .error ∧ t.ERR = .cmd)) ∧
    (s.PHASE = .error → (decode w = .ok .init → t.PHASE = .ready) ∧
      (decode w ≠ .ok .init → t.PHASE = .error))) ∧
  (∀ (s : State) (rest : List HostEvent), s.inputs = .reset :: rest →
    ∃ t, step s = .next t ∧ t.PHASE = .ready)

/-! ### Frames -/

/-- The frame of the commands that store nothing and compress nothing, NOP, ENDRAW, RDW, RDB, RDX and
RDSR: all but the response is unchanged, save `PHASE` where ENDRAW succeeds and `PHASE` and `ERR` where
an error is raised; every byte of `BUF` reads as before. That the three ill-formed RDSR commands the
operand's type leaves room for act as illegal words is the model's choice (log entry 8). -/
def Obligations.CommandsThatStoreNothingKeepAllButPhaseAndErr : Prop :=
  ∀ (i : Instr) (s t : State),
    (i = .nop ∨ i = .endraw ∨ (∃ k, i = .rdw k) ∨ (∃ k, i = .rdb k) ∨ (∃ k, i = .rdx k) ∨
      ∃ n, i = .rdsr n) →
    exec i s = .next t →
    t.H = s.H ∧ t.V = s.V ∧ t.W = s.W ∧ t.FILL = s.FILL ∧ t.LEN = s.LEN ∧ t.BLKCNT = s.BLKCNT ∧
    t.SEQ = s.SEQ ∧ t.inputs = s.inputs ∧ t.draws = s.draws ∧
    (∀ a, t.BUF.read a = s.BUF.read a) ∧
    (t.ERR = s.ERR ∨ (t.PHASE = .error ∧ s.PHASE ≠ .error)) ∧
    (t.PHASE = s.PHASE ∨ t.PHASE = .error ∨ (i = .endraw ∧ t.PHASE = .done)) ∧
    (i = .nop → t.PHASE = s.PHASE ∧ t.ERR = s.ERR) ∧
    ((∃ n : BitVec 3, n.toNat ≤ 4 ∧ i = .rdsr n) → t.PHASE = s.PHASE ∧ t.ERR = s.ERR) ∧
    ((∃ n : BitVec 3, 5 ≤ n.toNat ∧ i = .rdsr n) → s.PHASE ≠ .error → t.PHASE = .error ∧ t.ERR = .cmd)

/-- The frame of DATA: the one byte it stores goes to offset `FILL`, where it is accepted; every other byte
of `BUF` reads as before; the registers of the compressor change only where the byte completes a block;
an accepted byte leaves `PHASE` and `ERR`, a refused one leaves everything else. -/
def Obligations.DataChangesOneByteOfTheBuffer : Prop :=
  ∀ (b : Byte) (s t : State), exec (.data b) s = .next t →
    (∀ a, (s.PHASE = .ready → s.LEN.toNat ≠ 2 ^ 61 - 1 → a ≠ s.FILL.toNat) →
      t.BUF.read a = s.BUF.read a) ∧
    (s.PHASE = .ready → s.LEN.toNat ≠ 2 ^ 61 - 1 →
      t.BUF.read s.FILL.toNat = some b ∧ t.PHASE = s.PHASE ∧ t.ERR = s.ERR) ∧
    (¬ (s.PHASE = .ready ∧ s.LEN.toNat ≠ 2 ^ 61 - 1) → t.FILL = s.FILL ∧ t.LEN = s.LEN) ∧
    (¬ (s.PHASE = .ready ∧ s.LEN.toNat ≠ 2 ^ 61 - 1 ∧ s.FILL.toNat = 63) →
      t.H = s.H ∧ t.V = s.V ∧ t.W = s.W ∧ t.BLKCNT = s.BLKCNT) ∧
    (s.PHASE = .error → t.PHASE = s.PHASE ∧ t.ERR = s.ERR) ∧
    t.SEQ = s.SEQ ∧ t.inputs = s.inputs ∧ t.draws = s.draws

/-- The frame of FINAL: it stores to the offsets from `FILL` up to 63 and, where the length field has no
room behind `FILL`, to all 64; every other byte of `BUF` reads as before; `LEN` and the model's fields
are unchanged, and outside phase READY so is everything else but `PHASE` and `ERR`. -/
def Obligations.FinalStoresOnlyThePadding : Prop :=
  ∀ s t : State, exec .final s = .next t →
    (∀ a, (s.PHASE = .ready → ¬ ((if s.FILL.toNat ≤ 55 then s.FILL.toNat else 0) ≤ a ∧ a < 64)) →
      t.BUF.read a = s.BUF.read a) ∧
    t.LEN = s.LEN ∧ t.SEQ = s.SEQ ∧ t.inputs = s.inputs ∧ t.draws = s.draws ∧
    (s.PHASE = .ready → t.ERR = s.ERR) ∧
    (s.PHASE ≠ .ready → t.H = s.H ∧ t.V = s.V ∧ t.W = s.W ∧ t.BLKCNT = s.BLKCNT ∧ t.FILL = s.FILL) ∧
    (s.PHASE = .error → t.PHASE = s.PHASE ∧ t.ERR = s.ERR)

/-- `H` is written by INIT and by block compressions only, each of which `BLKCNT` counts (10_state.md R21):
INIT puts `IV`; a DATA that completes a block compresses the bytes of `BUF` with its own at offset 63; FINAL
compresses the block, or the two blocks, it has written to `BUF`; every other command, and every word in a
phase in which it does nothing, leaves both registers. -/
def Obligations.HashStateIsWrittenByInitAndCompressionOnly : Prop :=
  ∀ (w : Cmd) (s t : State), executeWord w s = .next t →
    (decode w = .ok .init → t.H = IV ∧ t.BLKCNT = 0) ∧
    (∀ b, decode w = .ok (.data b) → s.PHASE = .ready → s.LEN.toNat ≠ 2 ^ 61 - 1 → s.FILL.toNat = 63 →
      t.H = compressBlock s.H (s.BUF.write 63 b).block ∧ t.BLKCNT = s.BLKCNT + 1) ∧
    (decode w = .ok .final → s.PHASE = .ready → s.FILL.toNat ≤ 55 →
      t.H = compressBlock s.H
        (lengthBlock (s.BUF.write s.FILL.toNat 0x80) (s.FILL.toNat + 1) s.LEN).block ∧
      t.BLKCNT = s.BLKCNT + 1) ∧
    (decode w = .ok .final → s.PHASE = .ready → 56 ≤ s.FILL.toNat →
      t.H = compressBlock (compressBlock s.H (markedBlock s.BUF s.FILL.toNat).block)
        (lengthBlock (markedBlock s.BUF s.FILL.toNat) 0 s.LEN).block ∧
      t.BLKCNT = s.BLKCNT + 2) ∧
    (decode w ≠ .ok .init →
      (¬ ((∃ b, decode w = .ok (.data b)) ∧ s.PHASE = .ready ∧ s.LEN.toNat ≠ 2 ^ 61 - 1 ∧
        s.FILL.toNat = 63)) →
      ¬ (decode w = .ok .final ∧ s.PHASE = .ready) → t.H = s.H ∧ t.BLKCNT = s.BLKCNT)

/-! ### Invariants -/

/-- The invariant holds right after reset. -/
def Obligations.ResetMeetsTheInvariant : Prop := BoundaryInv State.reset

/-- Every step keeps the invariant of every command boundary (10_state.md R37), whatever the HOST presents,
a hardware reset included. -/
def Obligations.EveryStepKeepsTheInvariant : Prop :=
  ∀ s t : State, BoundaryInv s → step s = .next t → BoundaryInv t

/-- From a state that meets the invariant no step stops the machine: no rule reads a byte that nothing has
written, and no command hangs (10_state.md R38, 70_reset_and_hazards.md R279). -/
def Obligations.EveryStepProceeds : Prop := ∀ s : State, BoundaryInv s → Proceeds s

/-! ### Operators -/

/-- `add32` is addition modulo 2^32, commutative and associative (R111); `shr` is the floor of a division
and `<<` a product modulo 2^32 (R113). -/
def Obligations.AddAndShiftsAreArithmetic : Prop :=
  (∀ x y : Word, (add32 x y).toNat = (x.toNat + y.toNat) % 2 ^ 32) ∧
  (∀ x y : Word, add32 x y = add32 y x) ∧
  (∀ x y z : Word, add32 (add32 x y) z = add32 x (add32 y z)) ∧
  (∀ x : Word, add32 x 0 = x) ∧
  ∀ (x : Word) (n : Nat),
    (shr x n).toNat = x.toNat / 2 ^ n ∧ (shl x n).toNat = x.toNat * 2 ^ n % 2 ^ 32

/-- `rotr` by 1 to 31 moves bit `(i + n) mod 32` to bit `i` and loses none; by 0 and by 32 it is the
identity (R114). -/
def Obligations.RotrMovesEveryBit : Prop :=
  (∀ (x : Word) (n i : Nat), 1 ≤ n → n ≤ 31 → i < 32 →
    (rotr x n).getLsbD i = x.getLsbD ((i + n) % 32)) ∧
  (∀ (x : Word) (n : Nat), 1 ≤ n → n ≤ 31 → rotr x n = (x >>> n) ||| (x <<< (32 - n))) ∧
  (∀ n, 1 ≤ n → n ≤ 31 → rotr 0xffffffff n = 0xffffffff ∧ rotr 0 n = 0) ∧
  (∀ x : Word, rotr x 0 = x ∧ rotr x 32 = x)

/-- The four sigma functions, bit by bit: each bit is the exclusive or of three bits of the operand, the
third one absent at the top of the two small sigmas (R115 to R118). -/
def Obligations.SigmasAreXorsOfThreeBits : Prop :=
  ∀ (x : Word) (i : Nat), i < 32 →
    (ssig0 x).getLsbD i =
      ((x.getLsbD ((i + 7) % 32) ^^ x.getLsbD ((i + 18) % 32)) ^^ x.getLsbD (i + 3)) ∧
    (ssig1 x).getLsbD i =
      ((x.getLsbD ((i + 17) % 32) ^^ x.getLsbD ((i + 19) % 32)) ^^ x.getLsbD (i + 10)) ∧
    (bsig0 x).getLsbD i =
      ((x.getLsbD ((i + 2) % 32) ^^ x.getLsbD ((i + 13) % 32)) ^^ x.getLsbD ((i + 22) % 32)) ∧
    (bsig1 x).getLsbD i =
      ((x.getLsbD ((i + 6) % 32) ^^ x.getLsbD ((i + 11) % 32)) ^^ x.getLsbD ((i + 25) % 32))

/-- `Ch` chooses bit by bit, and its exclusive or equals an or (R119); a bit of `Maj` is 1 iff at least two
of its operands' bits are, and it is symmetric (R120). -/
def Obligations.ChChoosesAndMajCounts : Prop :=
  (∀ (x y z : Word) (i : Nat), i < 32 →
    (ch x y z).getLsbD i = (if x.getLsbD i then y.getLsbD i else z.getLsbD i) ∧
    ((maj x y z).getLsbD i = true ↔
      2 ≤ (x.getLsbD i).toNat + (y.getLsbD i).toNat + (z.getLsbD i).toNat)) ∧
  (∀ x y z : Word, ch x y z = or32 (and32 x y) (and32 (not32 x) z)) ∧
  (∀ y z : Word, ch 0xffffffff y z = y ∧ ch 0 y z = z) ∧ (∀ x y : Word, ch x y y = y) ∧
  (∀ x y z : Word, maj x y z = maj y x z ∧ maj x y z = maj x z y) ∧
  (∀ x z : Word, maj x x z = x) ∧
  (∀ y z : Word, maj 0 y z = and32 y z ∧ maj 0xffffffff y z = or32 y z)

/-! ### The constant ROMs -/

/-- The two ROMs hold the first 32 bits of the fractional parts of roots of primes, the check R121 and R122
report: `K[t]` of the cube root of the `t`-th prime, `IV[i]` of the square root of the `i`-th. For each there
is an integer part `q` such that `q·2^32` plus the constant is the root times 2^32, rounded down. -/
def Obligations.RomsHoldRootsOfPrimes : Prop :=
  let primes : List Nat := [2, 3, 5, 7, 11, 13, 17, 19, 23, 29, 31, 37, 41, 43, 47, 53] ++
    [59, 61, 67, 71, 73, 79, 83, 89, 97, 101, 103, 107, 109, 113, 127, 131] ++
    [137, 139, 149, 151, 157, 163, 167, 173, 179, 181, 191, 193, 197, 199, 211, 223] ++
    [227, 229, 233, 239, 241, 251, 257, 263, 269, 271, 277, 281, 283, 293, 307, 311]
  (∀ (t : Nat) (h : t < 64), ∃ q, q < 7 ∧
    (q * 2 ^ 32 + krom[t].toNat) ^ 3 ≤ primes.getD t 0 * 2 ^ 96 ∧
    primes.getD t 0 * 2 ^ 96 < (q * 2 ^ 32 + krom[t].toNat + 1) ^ 3) ∧
  (∀ (i : Nat) (h : i < 8), ∃ q, q < 5 ∧
    (q * 2 ^ 32 + IV[i].toNat) ^ 2 ≤ primes.getD i 0 * 2 ^ 64 ∧
    primes.getD i 0 * 2 ^ 64 < (q * 2 ^ 32 + IV[i].toNat + 1) ^ 2)

/-! ### Compressor -/

/-- The message schedule: words 0..15 are the block's big-endian words, words 16..63 follow the
recurrence, and an all-zero block gives all zeros (R164, R165). -/
def Obligations.ScheduleFollowsTheRecurrence : Prop :=
  (∀ (B : Vector Byte 64) (i : Nat) (h : i < 16),
    (schedule B)[i].toNat = B[4 * i].toNat * 2 ^ 24 + B[4 * i + 1].toNat * 2 ^ 16 +
      B[4 * i + 2].toNat * 2 ^ 8 + B[4 * i + 3].toNat) ∧
  (∀ (B : Vector Byte 64) (j : Nat) (h : 16 ≤ j) (h' : j < 64),
    (schedule B)[j] = (schedule B)[j - 16] + ssig0 (schedule B)[j - 15] + (schedule B)[j - 7] +
      ssig1 (schedule B)[j - 2]) ∧
  (∀ (j : Nat) (h : j < 64), (schedule (Vector.replicate 64 0))[j] = 0)

/-- The rounds: `roundsAll` passes through 64 rounds in order, each shifting the working variables as R167
says with `K[t]` and `W[t]`. -/
def Obligations.RoundsShiftTheWorkingVariables : Prop :=
  (∀ a b c d e f g h k w : Word,
    round #v[a, b, c, d, e, f, g, h] k w =
      (let t1 := h + bsig1 e + ch e f g + k + w
       let t2 := bsig0 a + maj a b c
       #v[t1 + t2, a, b, c, d + t1, e, f, g])) ∧
  (∀ (W : Vector Word 64) (v : Vector Word 8), ∃ vs : List (Vector Word 8),
    vs.length = 65 ∧ vs[0]? = some v ∧ vs[64]? = some (roundsAll W v) ∧
    ∀ (t : Nat) (ht : t < 64), ∃ u, vs[t]? = some u ∧ vs[t + 1]? = some (round u krom[t] W[t]))

/-- The state update adds each working variable into its state word, modulo 2^32 (R169), after the steps
in the order of R170. -/
def Obligations.CompressBlockFeedsForward : Prop :=
  ∀ (h : Vector Word 8) (B : Vector Byte 64) (i : Nat) (hi : i < 8),
    (compressBlock h B)[i].toNat =
      (h[i].toNat + (roundsAll (schedule B) h)[i].toNat) % 2 ^ 32

/-- `CompressBuf` (R210): with all 64 bytes of the block written it cannot fail; it writes `H`, `W`, `V`,
`BLKCNT` and `FILL` and nothing else, and `BUF` keeps its bytes. -/
def Obligations.CompressBufCompressesTheBuffer : Prop :=
  ∀ s : State, (∀ a, a < 64 → (s.BUF.read a).isSome = true) →
    ∃ B : Vector Byte 64, (∀ j (h : j < 64), s.BUF.read j = some B[j]) ∧
      compressBuf s = .next { s with
        H := compressBlock s.H B, W := schedule B, V := roundsAll (schedule B) s.H,
        BLKCNT := s.BLKCNT + 1, FILL := 0 }

/-- The 130 micro-steps of the sequencer (R173): from a full buffer, `(S_LOAD, 0)` on, with no hardware
reset presented, the machine's step run 130 times ends with the sequencer at rest in the very state
`CompressBuf` leaves, and while they last every step keeps the inputs and the response. -/
def Obligations.MicroStepsRefineCompressBuf : Prop :=
  ∀ s : State, s.SEQ = ⟨.idle, 0⟩ → (∀ a, a < 64 → (s.BUF.read a).isSome = true) →
    (∀ rest, s.inputs ≠ .reset :: rest) →
    (∃ t, compressBuf s = .next t ∧ Sys2Proof.core.run 130 (beginBlock s) = .next t) ∧
    ∀ n, n < 130 → ∃ u : State, Sys2Proof.core.run n (beginBlock s) = .next u ∧
      u.SEQ.stage ≠ .idle ∧ u.inputs = s.inputs ∧ u.resp = s.resp

/-! ### Padder -/

/-- The zero-fill count is the smallest one that puts the length field at the end of a block (R141). -/
def Obligations.ZeroFillIsTheSmallest : Prop :=
  ∀ L : Nat,
    (L + 1 + zeroFill L) % 64 = 56 ∧ (∀ k, (L + 1 + k) % 64 = 56 → zeroFill L ≤ k) ∧
    zeroFill L ≤ 63 ∧ (zeroFill L = 0 ↔ L % 64 = 55) ∧ (zeroFill L = 63 ↔ L % 64 = 56)

/-- The padded message, offset by offset (R142, R143): the message, `0x80`, `k` zero bytes, and the eight
bytes of `8·L`, most significant first. -/
def Obligations.PaddedMessageOffsetByOffset : Prop :=
  ∀ m : List Byte, m.length ≤ 2 ^ 61 - 1 → ∃ P, pad m = some P ∧
    P.length = m.length + 1 + zeroFill m.length + 8 ∧
    (∀ j, j < m.length → P[j]? = m[j]?) ∧
    P[m.length]? = some 0x80 ∧
    (∀ j, m.length < j → j ≤ m.length + zeroFill m.length → P[j]? = some 0) ∧
    (∀ j, j < 8 → P[P.length - 8 + j]? =
      some (BitVec.ofNat 8 (8 * m.length / 2 ^ (56 - 8 * j))))

/-- The padded length (R144): a positive multiple of 64, at least nine more than the message, and
`ceil((L + 9) / 64)` blocks. -/
def Obligations.PaddedLengthIsWholeBlocks : Prop :=
  ∀ (m P : List Byte), pad m = some P →
    P.length = m.length + 1 + zeroFill m.length + 8 ∧
    P.length % 64 = 0 ∧ 0 < P.length ∧ m.length + 9 ≤ P.length ∧
    P.length / 64 = (m.length + 9 + 63) / 64 ∧
    (m.length % 64 ≤ 55 → P.length / 64 = m.length / 64 + 1) ∧
    (56 ≤ m.length % 64 → P.length / 64 = m.length / 64 + 2)

/-! ### Formatter -/

/-- The byte form (R191): 32 bytes, each the byte of its word, most significant first, and RDB's view the
same. -/
def Obligations.DigestBytesAreBigEndian : Prop :=
  ∀ h : Vector Word 8, (formatBytes h).length = 32 ∧
    ∀ (i : Nat) (hi : i < 32),
      (formatBytes h)[i]? = some (digb h (BitVec.ofNat 5 i)) ∧
      (digb h (BitVec.ofNat 5 i)).toNat = h[i / 4].toNat / 2 ^ (24 - 8 * (i % 4)) % 256

/-- The text form (R192, R193): 64 characters, each the lowercase digit of its nibble, most significant
first; characters `2j` and `2j + 1` are the two nibbles of byte `j`. -/
def Obligations.DigestTextIsLowercaseHex : Prop :=
  (∀ h : Vector Word 8, (formatHex h).length = 64 ∧
    ∀ (i : Nat) (hi : i < 64),
      (formatHex h)[i]? = some (digx h (BitVec.ofNat 6 i)) ∧
      (digx h (BitVec.ofNat 6 i)).toNat =
        (let v := h[i / 8].toNat / 2 ^ (28 - 4 * (i % 8)) % 16
         if v ≤ 9 then 0x30 + v else 0x57 + v)) ∧
  (∀ (h : Vector Word 8) (j : Nat), j < 32 →
    nib h (BitVec.ofNat 6 (2 * j)) = (digb h (BitVec.ofNat 5 j)).extractLsb' 4 4 ∧
    nib h (BitVec.ofNat 6 (2 * j + 1)) = (digb h (BitVec.ofNat 5 j)).extractLsb' 0 4)

/-- The three forms carry the same information: equal bytes or equal texts come from equal states (R194). -/
def Obligations.DigestFormsAreInterchangeable : Prop :=
  ∀ h h' : Vector Word 8,
    (formatBytes h = formatBytes h' → h = h') ∧ (formatHex h = formatHex h' → h = h')

/-! ### What command sequences compute -/

/-- Right after INIT, and right after a hardware reset, the ENGINE has received the empty message. -/
def Obligations.AFreshInvocationHasReceivedNothing : Prop :=
  (∀ s t : State, exec .init s = .next t → Absorbed t []) ∧ ∀ s : State, Absorbed (hardwareReset s) []

/-- One DATA extends the message received by its byte: counters, hash state and buffer follow
(10_state.md R37 b and c, R25, R53). -/
def Obligations.DataExtendsTheMessageReceived : Prop :=
  ∀ (s : State) (m : List Byte) (b : Byte), Absorbed s m → m.length < 2 ^ 61 - 1 →
    ∃ t, exec (.data b) s = .next t ∧ Absorbed t (m ++ [b])

/-- FINAL compresses exactly `pad(m)`: after the message `m` was received it leaves
`H = compress(pad(m))` and `BLKCNT = ceil((L + 9) / 64)` (R204, 41_padder.md R147, 10_state.md R37 d). -/
def Obligations.FinalLeavesTheDigestOfThePaddedMessage : Prop :=
  ∀ (s : State) (m : List Byte), Absorbed s m →
    ∃ t, exec .final s = .next t ∧ (pad m).bind compress = some t.H ∧ t.PHASE = .done ∧ t.FILL = 0 ∧
      t.LEN = s.LEN ∧ t.BLKCNT.toNat = (m.length + 9 + 63) / 64

/-- The end-to-end rule (R211): from any state at rest, `SHA256 m` ends in phase DONE with
`H = compress(pad(m))`, and the 64 responses to `RDX 0` .. `RDX 63` that follow spell `sha256(m)`,
whatever came before; straight after a reset the INIT may be omitted. -/
def Obligations.Sha256CommandsComputeSha256 : Prop :=
  (∀ (m : List Byte) (s : State) (rest : List HostEvent), m.length ≤ 2 ^ 61 - 1 →
    s.SEQ.stage = .idle → s.inputs = issue (sha256Seq m ++ rdHex) ++ rest →
    ∃ (t : State) (d : List Byte), Sys2Proof.core.run (m.length + 2) s = .next t ∧
      t.PHASE = .done ∧ (pad m).bind compress = some t.H ∧ sha256 m = some d ∧ d.length = 64 ∧
      ∀ (i : Nat), i < 64 → ∃ u : State, Sys2Proof.core.run (m.length + 2 + (i + 1)) s = .next u ∧
        ∃ c, d[i]? = some c ∧ u.resp = some ⟨c.setWidth 32, true, false⟩) ∧
  (∀ (m : List Byte) (s : State) (rest : List HostEvent), m.length ≤ 2 ^ 61 - 1 →
    s.inputs = .reset :: (issue (msg m ++ [.final]) ++ rest) →
    ∃ t : State, Sys2Proof.core.run (m.length + 2) s = .next t ∧ t.PHASE = .done ∧
      (pad m).bind compress = some t.H)

/-- The raw path (R212): `COMPRESS p` ends in phase DONE with `H = compress(p)` where `p` is whole blocks,
and in phase ERROR with `ERR_ALIGN` otherwise; so `COMPRESS pad(m)` leaves the `H` of `SHA256 m`. -/
def Obligations.CompressCommandsComputeCompress : Prop :=
  (∀ (p : List Byte) (s : State) (rest : List HostEvent), p.length ≤ 2 ^ 61 - 1 →
    s.SEQ.stage = .idle → s.inputs = issue (compressSeq p) ++ rest →
    ∃ t : State, Sys2Proof.core.run (p.length + 2) s = .next t ∧
      (p.length % 64 = 0 → t.PHASE = .done ∧ compress p = some t.H) ∧
      (p.length % 64 ≠ 0 → t.PHASE = .error ∧ t.ERR = .align)) ∧
  (∀ (m P : List Byte) (s s' : State), pad m = some P → P.length ≤ 2 ^ 61 - 1 →
    s.SEQ.stage = .idle → s'.SEQ.stage = .idle →
    s.inputs = issue (sha256Seq m) → s'.inputs = issue (compressSeq P) →
    ∃ t t' : State, Sys2Proof.core.run (m.length + 2) s = .next t ∧
      Sys2Proof.core.run (P.length + 2) s' = .next t' ∧ t'.H = t.H)

/-! ### Isolation -/

/-- No rule reads scratch: two states that differ only in `V`, `W` and the bytes of `BUF` at and above
`FILL` go through every step alike (R38). -/
def Obligations.ScratchIsNeverObserved : Prop :=
  ∀ s t s' : State, SameButScratch s t → s.SEQ.stage = .idle → step s = .next s' →
    ∃ t', step t = .next t' ∧ SameButScratch s' t'

/-- INIT erases every trace of the past (R40): two states at rest, whatever they hold, that are given the
same events beginning with INIT agree on every response ever after. -/
def Obligations.InitErasesThePast : Prop :=
  ∀ (n : Nat) (s t s' : State) (rest : List HostEvent),
    s.SEQ.stage = .idle → t.SEQ.stage = .idle →
    s.inputs = .command 0x1000 :: rest → t.inputs = .command 0x1000 :: rest →
    Sys2Proof.core.run (n + 1) s = .next s' →
    ∃ t' : State, Sys2Proof.core.run (n + 1) t = .next t' ∧ SameButScratch s' t' ∧ s'.resp = t'.resp
end

