-- ==== Sys2Proof/Laws/Decode.lean ====
section
/-! SUPPORT. The fields of a command word as numbers, the fields of an encoded command, and what a decoded
command says of its word. -/

namespace Sys2Proof.Laws

open Sys2Proof

theorem opField_toNat (w : Cmd) : (opField w).toNat = w.toNat / 4096 := by
  have := w.isLt
  simp only [opField, BitVec.extractLsb'_toNat, Nat.shiftRight_eq_div_pow]
  omega

theorem rsvField_toNat (w : Cmd) : (rsvField w).toNat = w.toNat / 256 % 16 := by
  simp only [rsvField, BitVec.extractLsb'_toNat, Nat.shiftRight_eq_div_pow]

theorem immField_toNat (w : Cmd) : (immField w).toNat = w.toNat % 256 := by
  simp only [immField, BitVec.extractLsb'_toNat, Nat.shiftRight_eq_div_pow]
  omega

theorem packFields_toNat (op rsv : BitVec 4) (imm : Byte) :
    (packFields op rsv imm).toNat = op.toNat * 4096 + rsv.toNat * 256 + imm.toNat := by
  have h1 := rsv.isLt
  have h2 := imm.isLt
  simp only [packFields, BitVec.toNat_append]
  rw [← Nat.shiftLeft_add_eq_or_of_lt (by simpa using h2), ← Nat.shiftLeft_add_eq_or_of_lt (by simpa using h1)]
  simp only [Nat.shiftLeft_eq]
  omega

@[simp] theorem opField_packFields (op rsv : BitVec 4) (imm : Byte) : opField (packFields op rsv imm) = op := by
  have h1 := rsv.isLt
  have h2 := imm.isLt
  apply BitVec.eq_of_toNat_eq
  rw [opField_toNat, packFields_toNat]
  omega

@[simp] theorem rsvField_packFields (op rsv : BitVec 4) (imm : Byte) :
    rsvField (packFields op rsv imm) = rsv := by
  have h1 := rsv.isLt
  have h2 := imm.isLt
  apply BitVec.eq_of_toNat_eq
  rw [rsvField_toNat, packFields_toNat]
  omega

@[simp] theorem immField_packFields (op rsv : BitVec 4) (imm : Byte) :
    immField (packFields op rsv imm) = imm := by
  have h2 := imm.isLt
  apply BitVec.eq_of_toNat_eq
  rw [immField_toNat, packFields_toNat]
  omega

/-- A word is its three fields. -/
theorem packFields_fields (w : Cmd) : packFields (opField w) (rsvField w) (immField w) = w := by
  apply BitVec.eq_of_toNat_eq
  rw [packFields_toNat, opField_toNat, rsvField_toNat, immField_toNat]
  omega

/-- Every way the decoder can accept a word: the reserved bits are 0, and operation code and operand are
those of the command it answers. -/
theorem decode_cases {w : Cmd} {i : Instr} (h : decode w = .ok i) :
    rsvField w = 0 ∧
    ((opField w = 0 ∧ immField w = 0 ∧ i = .nop) ∨
     (opField w = 1 ∧ immField w = 0 ∧ i = .init) ∨
     (opField w = 2 ∧ i = .data (immField w)) ∨
     (opField w = 3 ∧ immField w = 0 ∧ i = .final) ∨
     (opField w = 4 ∧ immField w = 0 ∧ i = .endraw) ∨
     (opField w = 5 ∧ (immField w).toNat ≤ 7 ∧ i = .rdw ((immField w).setWidth 3)) ∨
     (opField w = 6 ∧ (immField w).toNat ≤ 31 ∧ i = .rdb ((immField w).setWidth 5)) ∨
     (opField w = 7 ∧ (immField w).toNat ≤ 63 ∧ i = .rdx ((immField w).setWidth 6)) ∨
     (opField w = 8 ∧ (immField w).toNat ≤ 4 ∧ i = .rdsr ((immField w).setWidth 3))) := by
  have hop : opField w = BitVec.ofNat 4 (opField w).toNat := by simp
  unfold decode at h
  split at h
  · cases h
  · split at h
    · cases h
    · rename_i h9 hr
      refine ⟨by simpa using hr, ?_⟩
      rw [hop]
      generalize (opField w).toNat = n at h h9
      generalize immField w = imm at h
      have hn : n < 9 := by omega
      clear hop hr h9
      interval_cases n <;> simp only [decodeOp] at h <;> (try split at h) <;> simp_all

/-- The decoder makes RDSR commands of existing registers only. -/
theorem decode_rdsr_le {w : Cmd} {n : BitVec 3} (h : decode w = .ok (.rdsr n)) : n.toNat ≤ 4 := by
  rcases decode_cases h with ⟨-, h⟩
  simp only [reduceCtorEq, and_false, false_or, Instr.rdsr.injEq] at h
  obtain ⟨-, h4, rfl⟩ := h
  rw [BitVec.toNat_setWidth]
  omega

/-- Where the decoder gives a reason for refusing an operand, operation code by operation code. -/
theorem decodeOp_error_iff (n : Nat) (hn : n < 9) (imm : Byte) :
    (∃ e, decodeOp n imm = .error e) ↔
      (n ∈ [0x0, 0x1, 0x3, 0x4] ∧ imm ≠ 0) ∨ (n = 0x5 ∧ 7 < imm.toNat) ∨ (n = 0x6 ∧ 31 < imm.toNat) ∨
        (n = 0x7 ∧ 63 < imm.toNat) ∨ (n = 0x8 ∧ 4 < imm.toNat) := by
  interval_cases n <;> simp only [decodeOp] <;> (try split) <;> simp_all

end Sys2Proof.Laws
end

