-- ==== Sys2Proof/Laws/Memory.lean ====
section
/-! SUPPORT. The laws of the block buffer: reading after writing, the canonical form, and what the wider
accesses see. -/

namespace Sys2Proof.Laws

open Sys2Proof Sys2Proof.Machine

/-- A byte reads as it was last written, and a write leaves every other offset alone. -/
theorem read_write (m : Memory) (a b : Nat) (v : Byte) :
    (m.write a v).read b = if a = b then some v else m.read b := by
  induction m with
  | nil => simp [Memory.write, Memory.read]
  | cons c m ih =>
    simp only [Memory.write]
    split
    · simp [Memory.read]
    · split
      · rename_i h; subst h; simp only [Memory.read]; split <;> simp_all
      · simp only [Memory.read, ih]; split <;> split <;> simp_all

@[simp] theorem read_write_same (m : Memory) (a : Nat) (v : Byte) : (m.write a v).read a = some v := by
  simp [read_write]

theorem read_write_other (m : Memory) {a b : Nat} (v : Byte) (h : a ≠ b) :
    (m.write a v).read b = m.read b := by
  simp [read_write, h]

/-- An entry of a written buffer is the new one or an old one. -/
theorem mem_write {m : Memory} {a : Nat} {v : Byte} {c : Host.Cell} (h : c ∈ m.write a v) :
    c = (a, v) ∨ c ∈ m := by
  induction m with
  | nil => simpa [Memory.write] using h
  | cons d m ih =>
    simp only [Memory.write] at h
    split at h
    · simpa using h
    · split at h
      · simp only [List.mem_cons] at h ⊢; tauto
      · simp only [List.mem_cons] at h ⊢
        rcases h with h | h
        · exact .inr (.inl h)
        · exact (ih h).imp_right .inr

/-- A write inside the space keeps the canonical form. -/
theorem wf_write {m : Memory} {a : Nat} {v : Byte} (hm : m.wf) (ha : a < 64) : (m.write a v).wf := by
  refine ⟨?_, fun c hc => (mem_write hc).elim (fun e => e ▸ ha) (hm.2 c)⟩
  obtain ⟨hs, -⟩ := hm
  induction m with
  | nil => simp [Memory.write]
  | cons d m ih =>
    obtain ⟨hd, hs'⟩ := List.pairwise_cons.1 hs
    simp only [Memory.write]
    split
    · rename_i h
      refine List.pairwise_cons.2 ⟨fun c hc => ?_, hs⟩
      rcases List.mem_cons.1 hc with rfl | hc
      · exact h
      · exact lt_trans h (hd c hc)
    · split
      · rename_i h; subst h; exact List.pairwise_cons.2 ⟨hd, hs'⟩
      · refine List.pairwise_cons.2 ⟨fun c hc => ?_, ih hs'⟩
        rcases mem_write hc with rfl | hc
        · simp only; omega
        · exact hd c hc

/-- Writing a list inside the space keeps the canonical form. -/
theorem wf_writeList {m : Memory} {a : Nat} {bs : List Byte} (hm : m.wf) (ha : a + bs.length ≤ 64) :
    (m.writeList a bs).wf := by
  induction bs generalizing m a with
  | nil => simpa [Memory.writeList] using hm
  | cons b bs ih =>
    simp only [List.length_cons] at ha
    exact ih (wf_write hm (by omega)) (by omega)

/-- A written list reads back, and every offset outside it is left alone. -/
theorem read_writeList (m : Memory) (a : Nat) (bs : List Byte) (b : Nat) :
    (m.writeList a bs).read b =
      if a ≤ b ∧ b < a + bs.length then bs[b - a]? else m.read b := by
  induction bs generalizing m a with
  | nil => simp [Memory.writeList]
  | cons x bs ih =>
    simp only [Memory.writeList, ih, read_write, List.length_cons]
    by_cases hab : a = b
    · subst hab; simp
    · by_cases h : a + 1 ≤ b ∧ b < a + 1 + bs.length
      · have hi : b - a = (b - (a + 1)) + 1 := by omega
        rw [if_pos h, if_pos (by omega), hi, List.getElem?_cons_succ]
      · rw [if_neg h, if_neg hab, if_neg (by omega)]

/-- No offset is missing exactly when every one of the 64 has been written. -/
theorem firstUnwritten_eq_none (m : Memory) :
    m.firstUnwritten = none ↔ ∀ a, a < 64 → (m.read a).isSome = true := by
  simp [Memory.firstUnwritten, Option.isSome_iff_ne_none]

/-- The offset `firstUnwritten` names is inside the space and holds no value. -/
theorem firstUnwritten_eq_some {m : Memory} {a : Nat} (h : m.firstUnwritten = some a) :
    a < 64 ∧ m.read a = none := by
  have h1 := List.mem_of_find?_eq_some h
  have h2 := List.find?_some h
  exact ⟨by simpa using h1, by simpa using h2⟩

@[simp] theorem block_getElem (m : Memory) (a : Nat) (h : a < 64) : m.block[a] = (m.read a).getD 0 := by
  simp [Memory.block]

/-- Two buffers that read alike at the 64 offsets are alike to a block compression. -/
theorem firstUnwritten_congr {m n : Memory} (h : ∀ a, a < 64 → m.read a = n.read a) :
    m.firstUnwritten = n.firstUnwritten := by
  have key : ∀ l : List Nat, (∀ a ∈ l, a < 64) →
      l.find? (fun a => (m.read a).isNone) = l.find? (fun a => (n.read a).isNone) := by
    intro l hl
    induction l with
    | nil => rfl
    | cons a l ih =>
      simp only [List.find?_cons, h a (hl a (by simp)), ih (fun b hb => hl b (by simp [hb]))]
  exact key _ (by simp)

theorem block_congr {m n : Memory} (h : ∀ a, a < 64 → m.read a = n.read a) : m.block = n.block := by
  ext a ha
  simp [h a ha]

/-- A four-byte read of written bytes is their word, most significant byte first. -/
theorem readWord_ok (m : Memory) (a : Nat) (h : ∀ j, j < 4 → (m.read (a + j)).isSome = true) :
    m.readWord a = .ok (beWord ((m.read a).getD 0) ((m.read (a + 1)).getD 0)
      ((m.read (a + 2)).getD 0) ((m.read (a + 3)).getD 0)) := by
  obtain ⟨b0, h0⟩ := Option.isSome_iff_exists.1 (h 0 (by decide))
  obtain ⟨b1, h1⟩ := Option.isSome_iff_exists.1 (h 1 (by decide))
  obtain ⟨b2, h2⟩ := Option.isSome_iff_exists.1 (h 2 (by decide))
  obtain ⟨b3, h3⟩ := Option.isSome_iff_exists.1 (h 3 (by decide))
  rw [Nat.add_zero] at h0
  simp [Memory.readWord, h0, h1, h2, h3]

/-- A block of written bytes is those bytes. -/
theorem read_block {m : Memory} (h : m.firstUnwritten = none) (j : Nat) (hj : j < 64) :
    m.read j = some m.block[j] := by
  obtain ⟨v, hv⟩ := Option.isSome_iff_exists.1 ((firstUnwritten_eq_none m).1 h j hj)
  simp [hv]

end Sys2Proof.Laws
end

