-- ==== Sys2Proof/Laws/State.lean ====
section
/-! SUPPORT. What each named update of the state leaves in each field, one lemma per field per update, and
the outputs after it. -/

namespace Sys2Proof.Laws

open Sys2Proof Sys2Proof.Machine

/-! ### `respond` -/

@[simp] theorem respond_H (d : Word) (s : State) : (respond d s).H = s.H := rfl
@[simp] theorem respond_V (d : Word) (s : State) : (respond d s).V = s.V := rfl
@[simp] theorem respond_W (d : Word) (s : State) : (respond d s).W = s.W := rfl
@[simp] theorem respond_BUF (d : Word) (s : State) : (respond d s).BUF = s.BUF := rfl
@[simp] theorem respond_FILL (d : Word) (s : State) : (respond d s).FILL = s.FILL := rfl
@[simp] theorem respond_LEN (d : Word) (s : State) : (respond d s).LEN = s.LEN := rfl
@[simp] theorem respond_BLKCNT (d : Word) (s : State) : (respond d s).BLKCNT = s.BLKCNT := rfl
@[simp] theorem respond_PHASE (d : Word) (s : State) : (respond d s).PHASE = s.PHASE := rfl
@[simp] theorem respond_ERR (d : Word) (s : State) : (respond d s).ERR = s.ERR := rfl
@[simp] theorem respond_SEQ (d : Word) (s : State) : (respond d s).SEQ = s.SEQ := rfl
@[simp] theorem respond_inputs (d : Word) (s : State) : (respond d s).inputs = s.inputs := rfl
@[simp] theorem respond_resp (d : Word) (s : State) : (respond d s).resp = some ⟨d, s.doneOut, s.errOut⟩ := rfl
@[simp] theorem respond_draws (d : Word) (s : State) : (respond d s).draws = s.draws := rfl

/-! ### `raiseErr` -/

@[simp] theorem raiseErr_H (c : ErrCode) (s : State) : (raiseErr c s).H = s.H := rfl
@[simp] theorem raiseErr_V (c : ErrCode) (s : State) : (raiseErr c s).V = s.V := rfl
@[simp] theorem raiseErr_W (c : ErrCode) (s : State) : (raiseErr c s).W = s.W := rfl
@[simp] theorem raiseErr_BUF (c : ErrCode) (s : State) : (raiseErr c s).BUF = s.BUF := rfl
@[simp] theorem raiseErr_FILL (c : ErrCode) (s : State) : (raiseErr c s).FILL = s.FILL := rfl
@[simp] theorem raiseErr_LEN (c : ErrCode) (s : State) : (raiseErr c s).LEN = s.LEN := rfl
@[simp] theorem raiseErr_BLKCNT (c : ErrCode) (s : State) : (raiseErr c s).BLKCNT = s.BLKCNT := rfl
@[simp] theorem raiseErr_PHASE (c : ErrCode) (s : State) : (raiseErr c s).PHASE = .error := rfl
@[simp] theorem raiseErr_ERR (c : ErrCode) (s : State) : (raiseErr c s).ERR = c := rfl
@[simp] theorem raiseErr_SEQ (c : ErrCode) (s : State) : (raiseErr c s).SEQ = s.SEQ := rfl
@[simp] theorem raiseErr_inputs (c : ErrCode) (s : State) : (raiseErr c s).inputs = s.inputs := rfl
@[simp] theorem raiseErr_resp (c : ErrCode) (s : State) : (raiseErr c s).resp = some ⟨0, false, true⟩ := rfl
@[simp] theorem raiseErr_draws (c : ErrCode) (s : State) : (raiseErr c s).draws = s.draws := rfl

/-! ### `initialise` -/

@[simp] theorem initialise_H (s : State) : (initialise s).H = IV := rfl
@[simp] theorem initialise_V (s : State) : (initialise s).V = s.V := rfl
@[simp] theorem initialise_W (s : State) : (initialise s).W = s.W := rfl
@[simp] theorem initialise_BUF (s : State) : (initialise s).BUF = s.BUF := rfl
@[simp] theorem initialise_FILL (s : State) : (initialise s).FILL = 0 := rfl
@[simp] theorem initialise_LEN (s : State) : (initialise s).LEN = 0 := rfl
@[simp] theorem initialise_BLKCNT (s : State) : (initialise s).BLKCNT = 0 := rfl
@[simp] theorem initialise_PHASE (s : State) : (initialise s).PHASE = .ready := rfl
@[simp] theorem initialise_ERR (s : State) : (initialise s).ERR = .none := rfl
@[simp] theorem initialise_SEQ (s : State) : (initialise s).SEQ = Sequencer.home := rfl
@[simp] theorem initialise_inputs (s : State) : (initialise s).inputs = s.inputs := rfl
@[simp] theorem initialise_resp (s : State) : (initialise s).resp = s.resp := rfl
@[simp] theorem initialise_draws (s : State) : (initialise s).draws = s.draws := rfl

/-! ### `hardwareReset` -/

@[simp] theorem hardwareReset_H (s : State) : (hardwareReset s).H = IV := rfl
@[simp] theorem hardwareReset_V (s : State) : (hardwareReset s).V = tabulate 8 (Config.freeV (s.draws + 1)) := rfl
@[simp] theorem hardwareReset_W (s : State) : (hardwareReset s).W = tabulate 64 (Config.freeW (s.draws + 1)) := rfl
@[simp] theorem hardwareReset_BUF (s : State) : (hardwareReset s).BUF = [] := rfl
@[simp] theorem hardwareReset_FILL (s : State) : (hardwareReset s).FILL = 0 := rfl
@[simp] theorem hardwareReset_LEN (s : State) : (hardwareReset s).LEN = 0 := rfl
@[simp] theorem hardwareReset_BLKCNT (s : State) : (hardwareReset s).BLKCNT = 0 := rfl
@[simp] theorem hardwareReset_PHASE (s : State) : (hardwareReset s).PHASE = .ready := rfl
@[simp] theorem hardwareReset_ERR (s : State) : (hardwareReset s).ERR = .none := rfl
@[simp] theorem hardwareReset_SEQ (s : State) : (hardwareReset s).SEQ = Sequencer.home := rfl
@[simp] theorem hardwareReset_inputs (s : State) : (hardwareReset s).inputs = s.inputs := rfl
@[simp] theorem hardwareReset_resp (s : State) : (hardwareReset s).resp = none := rfl
@[simp] theorem hardwareReset_draws (s : State) : (hardwareReset s).draws = s.draws + 1 := rfl

/-! ### `beginBlock` -/

@[simp] theorem beginBlock_H (s : State) : (beginBlock s).H = s.H := rfl
@[simp] theorem beginBlock_V (s : State) : (beginBlock s).V = s.V := rfl
@[simp] theorem beginBlock_W (s : State) : (beginBlock s).W = s.W := rfl
@[simp] theorem beginBlock_BUF (s : State) : (beginBlock s).BUF = s.BUF := rfl
@[simp] theorem beginBlock_FILL (s : State) : (beginBlock s).FILL = s.FILL := rfl
@[simp] theorem beginBlock_LEN (s : State) : (beginBlock s).LEN = s.LEN := rfl
@[simp] theorem beginBlock_BLKCNT (s : State) : (beginBlock s).BLKCNT = s.BLKCNT := rfl
@[simp] theorem beginBlock_PHASE (s : State) : (beginBlock s).PHASE = s.PHASE := rfl
@[simp] theorem beginBlock_ERR (s : State) : (beginBlock s).ERR = s.ERR := rfl
@[simp] theorem beginBlock_SEQ (s : State) : (beginBlock s).SEQ = ⟨.load, 0⟩ := rfl
@[simp] theorem beginBlock_inputs (s : State) : (beginBlock s).inputs = s.inputs := rfl
@[simp] theorem beginBlock_resp (s : State) : (beginBlock s).resp = s.resp := rfl
@[simp] theorem beginBlock_draws (s : State) : (beginBlock s).draws = s.draws := rfl

/-! ### `presentWord` -/

@[simp] theorem presentWord_H (w : Cmd) (s : State) : (presentWord w s).H = s.H := rfl
@[simp] theorem presentWord_V (w : Cmd) (s : State) : (presentWord w s).V = s.V := rfl
@[simp] theorem presentWord_W (w : Cmd) (s : State) : (presentWord w s).W = s.W := rfl
@[simp] theorem presentWord_BUF (w : Cmd) (s : State) : (presentWord w s).BUF = s.BUF := rfl
@[simp] theorem presentWord_FILL (w : Cmd) (s : State) : (presentWord w s).FILL = s.FILL := rfl
@[simp] theorem presentWord_LEN (w : Cmd) (s : State) : (presentWord w s).LEN = s.LEN := rfl
@[simp] theorem presentWord_BLKCNT (w : Cmd) (s : State) : (presentWord w s).BLKCNT = s.BLKCNT := rfl
@[simp] theorem presentWord_PHASE (w : Cmd) (s : State) : (presentWord w s).PHASE = s.PHASE := rfl
@[simp] theorem presentWord_ERR (w : Cmd) (s : State) : (presentWord w s).ERR = s.ERR := rfl
@[simp] theorem presentWord_SEQ (w : Cmd) (s : State) : (presentWord w s).SEQ = Sequencer.home := rfl
@[simp] theorem presentWord_inputs (w : Cmd) (s : State) : (presentWord w s).inputs = .command w :: s.inputs := rfl
@[simp] theorem presentWord_resp (w : Cmd) (s : State) : (presentWord w s).resp = s.resp := rfl
@[simp] theorem presentWord_draws (w : Cmd) (s : State) : (presentWord w s).draws = s.draws := rfl

/-! ### `compressed` -/

@[simp] theorem compressed_H (s : State) : (compressed s).H = compressBlock s.H s.BUF.block := rfl
@[simp] theorem compressed_V (s : State) : (compressed s).V = roundsAll (schedule s.BUF.block) s.H := rfl
@[simp] theorem compressed_W (s : State) : (compressed s).W = schedule s.BUF.block := rfl
@[simp] theorem compressed_BUF (s : State) : (compressed s).BUF = s.BUF := rfl
@[simp] theorem compressed_FILL (s : State) : (compressed s).FILL = 0 := rfl
@[simp] theorem compressed_LEN (s : State) : (compressed s).LEN = s.LEN := rfl
@[simp] theorem compressed_BLKCNT (s : State) : (compressed s).BLKCNT = s.BLKCNT + 1 := rfl
@[simp] theorem compressed_PHASE (s : State) : (compressed s).PHASE = s.PHASE := rfl
@[simp] theorem compressed_ERR (s : State) : (compressed s).ERR = s.ERR := rfl
@[simp] theorem compressed_SEQ (s : State) : (compressed s).SEQ = s.SEQ := rfl
@[simp] theorem compressed_inputs (s : State) : (compressed s).inputs = s.inputs := rfl
@[simp] theorem compressed_resp (s : State) : (compressed s).resp = s.resp := rfl
@[simp] theorem compressed_draws (s : State) : (compressed s).draws = s.draws := rfl

/-! ### `withBuf` -/

@[simp] theorem withBuf_H (m : Memory) (s : State) : (withBuf m s).H = s.H := rfl
@[simp] theorem withBuf_V (m : Memory) (s : State) : (withBuf m s).V = s.V := rfl
@[simp] theorem withBuf_W (m : Memory) (s : State) : (withBuf m s).W = s.W := rfl
@[simp] theorem withBuf_BUF (m : Memory) (s : State) : (withBuf m s).BUF = m := rfl
@[simp] theorem withBuf_FILL (m : Memory) (s : State) : (withBuf m s).FILL = s.FILL := rfl
@[simp] theorem withBuf_LEN (m : Memory) (s : State) : (withBuf m s).LEN = s.LEN := rfl
@[simp] theorem withBuf_BLKCNT (m : Memory) (s : State) : (withBuf m s).BLKCNT = s.BLKCNT := rfl
@[simp] theorem withBuf_PHASE (m : Memory) (s : State) : (withBuf m s).PHASE = s.PHASE := rfl
@[simp] theorem withBuf_ERR (m : Memory) (s : State) : (withBuf m s).ERR = s.ERR := rfl
@[simp] theorem withBuf_SEQ (m : Memory) (s : State) : (withBuf m s).SEQ = s.SEQ := rfl
@[simp] theorem withBuf_inputs (m : Memory) (s : State) : (withBuf m s).inputs = s.inputs := rfl
@[simp] theorem withBuf_resp (m : Memory) (s : State) : (withBuf m s).resp = s.resp := rfl
@[simp] theorem withBuf_draws (m : Memory) (s : State) : (withBuf m s).draws = s.draws := rfl

/-! ### The outputs -/

@[simp] theorem respond_doneOut (d : Word) (s : State) : (respond d s).doneOut = s.doneOut := rfl
@[simp] theorem respond_errOut (d : Word) (s : State) : (respond d s).errOut = s.errOut := rfl
@[simp] theorem raiseErr_doneOut (c : ErrCode) (s : State) : (raiseErr c s).doneOut = false := rfl
@[simp] theorem raiseErr_errOut (c : ErrCode) (s : State) : (raiseErr c s).errOut = true := rfl
@[simp] theorem initialise_doneOut (s : State) : (initialise s).doneOut = false := rfl
@[simp] theorem initialise_errOut (s : State) : (initialise s).errOut = false := rfl
@[simp] theorem hardwareReset_doneOut (s : State) : (hardwareReset s).doneOut = false := rfl
@[simp] theorem hardwareReset_errOut (s : State) : (hardwareReset s).errOut = false := rfl

end Sys2Proof.Laws
end

