-- ==== Sys2Proof/Laws/Ops.lean ====
section
/-! SUPPORT. What each shared operation can do: where it answers a next state, which one, and the inversion
of every gate, so that no later proof unfolds it. -/

namespace Sys2Proof.Laws

open Sys2Proof Sys2Proof.Machine

/-! ### Sequencing -/

@[simp] theorem andThen_next (s : State) (f : State → Result) : andThen (.next s) f = f s := rfl

theorem andThen_cases {r : Result} {f : State → Result} {t : State} (h : andThen r f = .next t) :
    ∃ u, r = .next u ∧ f u = .next t := by
  cases r with
  | next u => exact ⟨u, rfl, h⟩
  | fault x => cases h
  | refused x => cases h

/-! ### The gates -/

theorem unlessError_of_error {s : State} (h : s.PHASE = .error) (f : State → Result) :
    unlessError s f = .next (respond 0 s) := by
  simp [unlessError, h]

theorem unlessError_of_ne {s : State} (h : s.PHASE ≠ .error) (f : State → Result) :
    unlessError s f = f s := by
  unfold unlessError
  split <;> simp_all

theorem illegalCommand_of_error {s : State} (h : s.PHASE = .error) :
    illegalCommand s = .next (respond 0 s) := unlessError_of_error h _

theorem illegalCommand_of_ne {s : State} (h : s.PHASE ≠ .error) :
    illegalCommand s = .next (raiseErr .cmd s) := unlessError_of_ne h _

theorem inReady_of_ready {s : State} (h : s.PHASE = .ready) (f : State → Result) : inReady s f = f s := by
  simp [inReady, unlessError, h]

theorem inReady_of_done {s : State} (h : s.PHASE = .done) (f : State → Result) :
    inReady s f = .next (raiseErr .seq s) := by
  simp [inReady, unlessError, h]

theorem inReady_of_error {s : State} (h : s.PHASE = .error) (f : State → Result) :
    inReady s f = .next (respond 0 s) := unlessError_of_error h _

theorem inDone_of_done {s : State} (h : s.PHASE = .done) (f : State → Result) : inDone s f = f s := by
  simp [inDone, unlessError, h]

theorem inDone_of_ready {s : State} (h : s.PHASE = .ready) (f : State → Result) :
    inDone s f = .next (raiseErr .seq s) := by
  simp [inDone, unlessError, h]

theorem inDone_of_error {s : State} (h : s.PHASE = .error) (f : State → Result) :
    inDone s f = .next (respond 0 s) := unlessError_of_error h _

theorem illegalCommand_cases {s t : State} (h : illegalCommand s = .next t) :
    (s.PHASE = .error ∧ t = respond 0 s) ∨ (s.PHASE ≠ .error ∧ t = raiseErr .cmd s) := by
  by_cases hp : s.PHASE = .error
  · rw [illegalCommand_of_error hp] at h; cases h; exact .inl ⟨hp, rfl⟩
  · rw [illegalCommand_of_ne hp] at h; cases h; exact .inr ⟨hp, rfl⟩

theorem inReady_cases {s t : State} {f : State → Result} (h : inReady s f = .next t) :
    (s.PHASE = .error ∧ t = respond 0 s) ∨ (s.PHASE = .done ∧ t = raiseErr .seq s) ∨
      (s.PHASE = .ready ∧ f s = .next t) := by
  cases hp : s.PHASE with
  | error => rw [inReady_of_error hp] at h; cases h; simp
  | done => rw [inReady_of_done hp] at h; cases h; simp
  | ready => rw [inReady_of_ready hp] at h; exact .inr (.inr ⟨rfl, h⟩)

theorem inDone_cases {s t : State} {f : State → Result} (h : inDone s f = .next t) :
    (s.PHASE = .error ∧ t = respond 0 s) ∨ (s.PHASE = .ready ∧ t = raiseErr .seq s) ∨
      (s.PHASE = .done ∧ f s = .next t) := by
  cases hp : s.PHASE with
  | error => rw [inDone_of_error hp] at h; cases h; simp
  | ready => rw [inDone_of_ready hp] at h; cases h; simp
  | done => rw [inDone_of_done hp] at h; exact .inr (.inr ⟨rfl, h⟩)

/-! ### Block compression, storing a byte, padding -/

theorem compressBuf_next {s : State} (h : s.BUF.firstUnwritten = none) :
    compressBuf s = .next (compressed s) := by
  simp [compressBuf, h]

theorem compressBuf_cases {s t : State} (h : compressBuf s = .next t) :
    s.BUF.firstUnwritten = none ∧ t = compressed s := by
  unfold compressBuf at h
  split at h
  · cases h
  · cases h; exact ⟨‹_›, rfl⟩

/-- The same with the bytes of `BUF` named, so that they are not unfolded to be compared. -/
theorem compressBuf_withBuf_next {m : Memory} {s : State} (h : m.firstUnwritten = none) :
    compressBuf (withBuf m s) = .next (compressed (withBuf m s)) := compressBuf_next h

theorem compressBuf_withBuf_cases {m : Memory} {s t : State} (h : compressBuf (withBuf m s) = .next t) :
    m.firstUnwritten = none ∧ t = compressed (withBuf m s) := compressBuf_cases h

/-- `appendByte` either stores its byte and counts it, or completes the block and compresses it. -/
theorem appendByte_cases {b : Byte} {s t : State} (h : appendByte b s = .next t) :
    (s.FILL.toNat < 63 ∧
      t = { s with BUF := s.BUF.write s.FILL.toNat b, LEN := s.LEN + 1, FILL := s.FILL + 1 }) ∨
    (s.FILL.toNat = 63 ∧ (s.BUF.write 63 b).firstUnwritten = none ∧
      t = compressed { s with BUF := s.BUF.write 63 b, LEN := s.LEN + 1 }) := by
  have hf := s.FILL.isLt
  unfold appendByte at h
  split at h
  · rename_i h63
    have h63 : s.FILL.toNat = 63 := by omega
    rw [h63] at h
    exact .inr ⟨h63, compressBuf_cases h⟩
  · cases h
    exact .inl ⟨by omega, rfl⟩

/-- `padAndCompress` completes one block where the length field has room behind `0x80`, else two. -/
theorem padAndCompress_cases {s t : State} (h : padAndCompress s = .next t) :
    (s.FILL.toNat ≤ 55 ∧
      (lengthBlock (s.BUF.write s.FILL.toNat 0x80) (s.FILL.toNat + 1) s.LEN).firstUnwritten = none ∧
      t = compressed
        (withBuf (lengthBlock (s.BUF.write s.FILL.toNat 0x80) (s.FILL.toNat + 1) s.LEN) s)) ∨
    (56 ≤ s.FILL.toNat ∧ (markedBlock s.BUF s.FILL.toNat).firstUnwritten = none ∧
      t = compressed (withBuf (lengthBlock (markedBlock s.BUF s.FILL.toNat) 0 s.LEN)
        (compressed (withBuf (markedBlock s.BUF s.FILL.toNat) s)))) := by
  unfold padAndCompress at h
  split at h
  · obtain ⟨u, hu, h⟩ := andThen_cases h
    obtain ⟨h1, rfl⟩ := compressBuf_withBuf_cases hu
    obtain ⟨-, rfl⟩ := compressBuf_withBuf_cases h
    exact .inr ⟨by omega, h1, rfl⟩
  · exact .inl ⟨by omega, compressBuf_withBuf_cases h⟩

/-- The bytes of the first of FINAL's two blocks. -/
theorem read_markedBlock (m : Memory) (fill a : Nat) (h : fill < 64) (ha : a < 64) :
    (markedBlock m fill).read a =
      if a < fill then m.read a else if a = fill then some 0x80 else some 0 := by
  simp only [markedBlock, read_writeList, List.length_replicate, read_write]
  by_cases h1 : a < fill
  · rw [if_neg (by omega), if_neg (by omega), if_pos h1]
  · by_cases h2 : a = fill
    · subst h2; simp
    · rw [if_pos (by omega), if_neg h1, if_neg h2, List.getElem?_replicate, if_pos (by omega)]

/-- The bytes of FINAL's last block. -/
theorem read_lengthBlock (m : Memory) (i : Nat) (len : BitVec 61) (a : Nat) (h : i ≤ 56) (ha : a < 64) :
    (lengthBlock m i len).read a =
      if a < i then m.read a else if a < 56 then some 0 else (be64 (bitLen len))[a - 56]? := by
  have hl : (be64 (bitLen len)).length = 8 := rfl
  simp only [lengthBlock, read_writeList, List.length_replicate, hl]
  by_cases h1 : a < i
  · rw [if_neg (by omega), if_neg (by omega), if_pos h1]
  · by_cases h2 : a < 56
    · rw [if_neg (by omega), if_pos (by omega), if_neg h1, if_pos h2, List.getElem?_replicate,
        if_pos (by omega)]
    · rw [if_pos (by omega), if_neg h1, if_neg h2]

/-- FINAL's stores leave every offset from 64 up alone. -/
theorem read_lengthBlock_outside (m : Memory) (i : Nat) (len : BitVec 61) (a : Nat) (h : i ≤ 56)
    (ha : 64 ≤ a) : (lengthBlock m i len).read a = m.read a := by
  have hl : (be64 (bitLen len)).length = 8 := rfl
  simp only [lengthBlock, read_writeList, List.length_replicate, hl]
  rw [if_neg (by omega), if_neg (by omega)]

theorem read_markedBlock_outside (m : Memory) (fill a : Nat) (h : fill < 64) (ha : 64 ≤ a) :
    (markedBlock m fill).read a = m.read a := by
  simp only [markedBlock, read_writeList, List.length_replicate, read_write]
  rw [if_neg (by omega), if_neg (by omega)]

theorem wf_markedBlock {m : Memory} {fill : Nat} (hm : m.wf) (h : fill < 64) : (markedBlock m fill).wf :=
  wf_writeList (wf_write hm h) (by simp; omega)

theorem wf_lengthBlock {m : Memory} {i : Nat} (len : BitVec 61) (hm : m.wf) (h : i ≤ 56) :
    (lengthBlock m i len).wf :=
  wf_writeList (wf_writeList hm (by simp; omega)) (by simp [be64])

/-- All 64 bytes of FINAL's first block are written where those below `FILL` were. -/
theorem markedBlock_written {m : Memory} {fill : Nat} (h : fill < 64)
    (hw : ∀ a, a < fill → (m.read a).isSome = true) : (markedBlock m fill).firstUnwritten = none := by
  rw [firstUnwritten_eq_none]
  intro a ha
  rw [read_markedBlock m fill a h ha]
  split
  · exact hw a ‹_›
  · split <;> rfl

/-- All 64 bytes of FINAL's last block are written where those below its first store were. -/
theorem lengthBlock_written {m : Memory} {i : Nat} (len : BitVec 61) (h : i ≤ 56)
    (hw : ∀ a, a < i → (m.read a).isSome = true) : (lengthBlock m i len).firstUnwritten = none := by
  rw [firstUnwritten_eq_none]
  intro a ha
  rw [read_lengthBlock m i len a h ha]
  split
  · exact hw a ‹_›
  · split
    · rfl
    · have hl : a - 56 < (be64 (bitLen len)).length := by simp [be64]; omega
      simp [List.getElem?_eq_getElem hl]

theorem padAndCompress_one {s : State} (h : s.FILL.toNat ≤ 55)
    (hw : ∀ a, a < s.FILL.toNat → (s.BUF.read a).isSome = true) :
    padAndCompress s = .next (compressed
      (withBuf (lengthBlock (s.BUF.write s.FILL.toNat 0x80) (s.FILL.toNat + 1) s.LEN) s)) := by
  unfold padAndCompress
  rw [if_neg (by omega)]
  refine compressBuf_withBuf_next (lengthBlock_written _ (by omega) fun a ha => ?_)
  rw [read_write]
  split
  · rfl
  · exact hw a (by omega)

theorem padAndCompress_two {s : State} (h : 56 ≤ s.FILL.toNat)
    (hw : ∀ a, a < s.FILL.toNat → (s.BUF.read a).isSome = true) :
    padAndCompress s = .next (compressed (withBuf (lengthBlock (markedBlock s.BUF s.FILL.toNat) 0 s.LEN)
      (compressed (withBuf (markedBlock s.BUF s.FILL.toNat) s)))) := by
  have hf := s.FILL.isLt
  unfold padAndCompress
  rw [if_pos (by omega), compressBuf_withBuf_next (markedBlock_written (by omega) hw), andThen_next]
  simp only [compressed_BUF, compressed_LEN, withBuf_BUF, withBuf_LEN]
  exact compressBuf_withBuf_next
    (lengthBlock_written _ (Nat.zero_le 56) fun a ha => absurd ha (Nat.not_lt_zero a))

/-- Storing a byte always goes on where the bytes below `FILL` are written. -/
theorem appendByte_next {b : Byte} {s : State}
    (h : ∀ a, a < s.FILL.toNat → (s.BUF.read a).isSome = true) : ∃ u, appendByte b s = .next u := by
  have hf := s.FILL.isLt
  unfold appendByte
  split
  · refine ⟨_, compressBuf_next ?_⟩
    rw [firstUnwritten_eq_none]
    intro a ha
    simp only [read_write]
    split
    · rfl
    · exact h a (by omega)
  · exact ⟨_, rfl⟩

/-- Padding always goes on where the bytes below `FILL` are written. -/
theorem padAndCompress_next {s : State} (h : ∀ a, a < s.FILL.toNat → (s.BUF.read a).isSome = true) :
    ∃ u, padAndCompress s = .next u := by
  by_cases hf : s.FILL.toNat ≤ 55
  · exact ⟨_, padAndCompress_one hf h⟩
  · exact ⟨_, padAndCompress_two (by omega) h⟩

/-- What storing a byte leaves alone, and the count it makes. -/
theorem appendByte_fields {b : Byte} {s u : State} (h : appendByte b s = .next u) :
    u.PHASE = s.PHASE ∧ u.ERR = s.ERR ∧ u.SEQ = s.SEQ ∧ u.inputs = s.inputs ∧ u.draws = s.draws ∧
      u.resp = s.resp ∧ u.LEN = s.LEN + 1 := by
  rcases appendByte_cases h with ⟨-, rfl⟩ | ⟨-, -, rfl⟩ <;> simp

/-- What padding leaves alone. -/
theorem padAndCompress_fields {s u : State} (h : padAndCompress s = .next u) :
    u.PHASE = s.PHASE ∧ u.ERR = s.ERR ∧ u.SEQ = s.SEQ ∧ u.inputs = s.inputs ∧ u.draws = s.draws ∧
      u.resp = s.resp ∧ u.LEN = s.LEN := by
  rcases padAndCompress_cases h with ⟨-, -, rfl⟩ | ⟨-, -, rfl⟩ <;> simp

/-- The bit length as a number. -/
theorem bitLen_eq (L : BitVec 61) : bitLen L = BitVec.ofNat 64 (8 * L.toNat) := by
  have := L.isLt
  apply BitVec.eq_of_toNat_eq
  simp only [bitLen, BitVec.toNat_append, BitVec.toNat_ofNat, Nat.shiftLeft_eq]
  simp
  omega

/-- The reset state's buffer is in canonical form. -/
theorem wf_reset : State.reset.BUF.wf := by simp [State.reset, Memory.wf]

/-! ### The response, by phase -/

theorem respond_of_error {s : State} {d : Word} (h : s.PHASE = .error) :
    respond d s = { s with resp := some ⟨d, false, true⟩ } := by
  simp [respond, State.doneOut, State.errOut, h]

theorem respond_of_done {s : State} {d : Word} (h : s.PHASE = .done) :
    respond d s = { s with resp := some ⟨d, true, false⟩ } := by
  simp [respond, State.doneOut, State.errOut, h]

theorem respond_of_ready {s : State} {d : Word} (h : s.PHASE = .ready) :
    respond d s = { s with resp := some ⟨d, false, false⟩ } := by
  simp [respond, State.doneOut, State.errOut, h]

/-! ### The status registers -/

theorem statusReg_isSome {s : State} {n : BitVec 3} (h : n.toNat ≤ 4) : ∃ v, s.statusReg n = some v := by
  have : n.toNat = 0 ∨ n.toNat = 1 ∨ n.toNat = 2 ∨ n.toNat = 3 ∨ n.toNat = 4 := by omega
  unfold State.statusReg
  rcases this with h | h | h | h | h <;> simp [h]

theorem statusReg_eq_none {s : State} {n : BitVec 3} (h : 5 ≤ n.toNat) : s.statusReg n = none := by
  have hn := n.isLt
  have : n.toNat = 5 ∨ n.toNat = 6 ∨ n.toNat = 7 := by omega
  unfold State.statusReg
  rcases this with h | h | h <;> simp [h]

end Sys2Proof.Laws
end

