-- ==== Sys2Proof/Laws/Commands.lean ====
section
/-! SUPPORT. What each command can do: one inversion lemma per meaning, naming every case in which it
answers a next state and that state. -/

namespace Sys2Proof.Laws

open Sys2Proof Sys2Proof.Machine

theorem execData_cases {b : Byte} {s t : State} (h : execData b s = .next t) :
    (s.PHASE = .error ∧ t = respond 0 s) ∨
    (s.PHASE = .done ∧ t = raiseErr .seq s) ∨
    (s.PHASE = .ready ∧ s.LEN.toNat = Config.maxLen ∧ t = raiseErr .len s) ∨
    (s.PHASE = .ready ∧ s.LEN.toNat ≠ Config.maxLen ∧ ∃ u, appendByte b s = .next u ∧ t = respond 0 u) := by
  unfold execData at h
  rcases inReady_cases h with h | h | ⟨hp, h⟩
  · exact .inl h
  · exact .inr (.inl h)
  · split at h
    · cases h; exact .inr (.inr (.inl ⟨hp, ‹_›, rfl⟩))
    · obtain ⟨u, hu, h⟩ := andThen_cases h
      cases h; exact .inr (.inr (.inr ⟨hp, ‹_›, u, hu, rfl⟩))

theorem execFinal_cases {s t : State} (h : execFinal s = .next t) :
    (s.PHASE = .error ∧ t = respond 0 s) ∨
    (s.PHASE = .done ∧ t = raiseErr .seq s) ∨
    (s.PHASE = .ready ∧ ∃ u, padAndCompress s = .next u ∧ t = respond 0 { u with PHASE := .done }) := by
  unfold execFinal at h
  rcases inReady_cases h with h | h | ⟨hp, h⟩
  · exact .inl h
  · exact .inr (.inl h)
  · obtain ⟨u, hu, h⟩ := andThen_cases h
    cases h; exact .inr (.inr ⟨hp, u, hu, rfl⟩)

theorem execEndraw_cases {s t : State} (h : execEndraw s = .next t) :
    (s.PHASE = .error ∧ t = respond 0 s) ∨
    (s.PHASE = .done ∧ t = raiseErr .seq s) ∨
    (s.PHASE = .ready ∧ s.FILL ≠ 0 ∧ t = raiseErr .align s) ∨
    (s.PHASE = .ready ∧ s.FILL = 0 ∧ t = respond 0 { s with PHASE := .done }) := by
  unfold execEndraw at h
  rcases inReady_cases h with h | h | ⟨hp, h⟩
  · exact .inl h
  · exact .inr (.inl h)
  · split at h
    · cases h; exact .inr (.inr (.inl ⟨hp, ‹_›, rfl⟩))
    · rename_i h0
      cases h; exact .inr (.inr (.inr ⟨hp, not_not.1 h0, rfl⟩))

theorem execRdw_cases {i : BitVec 3} {s t : State} (h : execRdw i s = .next t) :
    (s.PHASE = .error ∧ t = respond 0 s) ∨
    (s.PHASE = .ready ∧ t = raiseErr .seq s) ∨
    (s.PHASE = .done ∧ t = respond (s.word i) s) := by
  unfold execRdw at h
  rcases inDone_cases h with h | h | ⟨hp, h⟩
  · exact .inl h
  · exact .inr (.inl h)
  · cases h; exact .inr (.inr ⟨hp, rfl⟩)

theorem execRdb_cases {i : BitVec 5} {s t : State} (h : execRdb i s = .next t) :
    (s.PHASE = .error ∧ t = respond 0 s) ∨
    (s.PHASE = .ready ∧ t = raiseErr .seq s) ∨
    (s.PHASE = .done ∧ t = respond (s.digestByte i) s) := by
  unfold execRdb at h
  rcases inDone_cases h with h | h | ⟨hp, h⟩
  · exact .inl h
  · exact .inr (.inl h)
  · cases h; exact .inr (.inr ⟨hp, rfl⟩)

theorem execRdx_cases {i : BitVec 6} {s t : State} (h : execRdx i s = .next t) :
    (s.PHASE = .error ∧ t = respond 0 s) ∨
    (s.PHASE = .ready ∧ t = raiseErr .seq s) ∨
    (s.PHASE = .done ∧ t = respond (s.digestChar i) s) := by
  unfold execRdx at h
  rcases inDone_cases h with h | h | ⟨hp, h⟩
  · exact .inl h
  · exact .inr (.inl h)
  · cases h; exact .inr (.inr ⟨hp, rfl⟩)

theorem execRdsr_cases {n : BitVec 3} {s t : State} (h : execRdsr n s = .next t) :
    (∃ v, s.statusReg n = some v ∧ t = respond v s) ∨
    (s.statusReg n = none ∧ s.PHASE = .error ∧ t = respond 0 s) ∨
    (s.statusReg n = none ∧ s.PHASE ≠ .error ∧ t = raiseErr .cmd s) := by
  unfold execRdsr at h
  split at h
  · rename_i v hv
    cases h; exact .inl ⟨v, hv, rfl⟩
  · rename_i hv
    rcases illegalCommand_cases h with h | h
    · exact .inr (.inl ⟨hv, h⟩)
    · exact .inr (.inr ⟨hv, h⟩)

/-- Phase ERROR: every command but INIT and RDSR answers 0 and changes nothing. -/
theorem exec_ignored {i : Instr} {s : State} (hp : s.PHASE = .error) (h1 : i ≠ .init)
    (h2 : ∀ n, i ≠ .rdsr n) : exec i s = .next (respond 0 s) := by
  cases i with
  | nop => rfl
  | init => exact absurd rfl h1
  | data | final | endraw => simp only [exec, execData, execFinal, execEndraw, inReady_of_error hp]
  | rdw | rdb | rdx => simp only [exec, execRdw, execRdb, execRdx, inDone_of_error hp]
  | rdsr n => exact absurd rfl (h2 n)

/-- Phase DONE: DATA, FINAL and ENDRAW are out of sequence. -/
theorem exec_seq_of_done {i : Instr} {s : State} (hp : s.PHASE = .done)
    (h : (∃ b, i = .data b) ∨ i = .final ∨ i = .endraw) : exec i s = .next (raiseErr .seq s) := by
  rcases h with ⟨b, rfl⟩ | rfl | rfl <;>
    simp only [exec, execData, execFinal, execEndraw, inReady_of_done hp]

/-- Phase READY: RDW, RDB and RDX are out of sequence. -/
theorem exec_seq_of_ready {i : Instr} {s : State} (hp : s.PHASE = .ready)
    (h : (∃ k, i = .rdw k) ∨ (∃ k, i = .rdb k) ∨ ∃ k, i = .rdx k) :
    exec i s = .next (raiseErr .seq s) := by
  rcases h with ⟨b, rfl⟩ | ⟨b, rfl⟩ | ⟨b, rfl⟩ <;>
    simp only [exec, execRdw, execRdb, execRdx, inDone_of_ready hp]

/-- A command goes on wherever the bytes below `FILL` are written. -/
theorem exec_next {i : Instr} {s : State} (h : ∀ a, a < s.FILL.toNat → (s.BUF.read a).isSome = true) :
    ∃ t, exec i s = .next t := by
  cases i with
  | nop => exact ⟨_, rfl⟩
  | init => exact ⟨_, rfl⟩
  | data b =>
    obtain ⟨u, hu⟩ := appendByte_next (b := b) h
    simp only [exec, execData, inReady, unlessError]
    split <;> (try split) <;> (try split) <;> simp_all
  | final =>
    obtain ⟨u, hu⟩ := padAndCompress_next h
    simp only [exec, execFinal, inReady, unlessError]
    split <;> (try split) <;> simp_all
  | endraw =>
    simp only [exec, execEndraw, inReady, unlessError]
    split <;> (try split) <;> (try split) <;> exact ⟨_, rfl⟩
  | rdw | rdb | rdx =>
    simp only [exec, execRdw, execRdb, execRdx, inDone, unlessError]
    split <;> (try split) <;> exact ⟨_, rfl⟩
  | rdsr n =>
    simp only [exec, execRdsr, illegalCommand, unlessError]
    split <;> (try split) <;> exact ⟨_, rfl⟩

/-- Every way a word can be executed, one case per command and one for the illegal words. -/
theorem executeWord_cases {w : Cmd} {s t : State} (h : executeWord w s = .next t) :
    (∃ i, decode w = .ok i ∧ exec i s = .next t) ∨
    (∃ e, decode w = .error e ∧ illegalCommand s = .next t) := by
  unfold executeWord at h
  split at h
  · exact .inl ⟨_, ‹_›, h⟩
  · exact .inr ⟨_, ‹_›, h⟩

/-- All that executing a word can do, one case per outcome: the state before, what the word decodes to,
and the state after. -/
inductive Executed (w : Cmd) (s : State) : State → Prop
  | ignored (hp : s.PHASE = .error) (h1 : decode w ≠ .ok .init) (h2 : ∀ n, decode w ≠ .ok (.rdsr n)) :
      Executed w s (respond 0 s)
  | nop (hd : decode w = .ok .nop) : Executed w s (respond 0 s)
  | init (hd : decode w = .ok .init) : Executed w s (respond 0 (initialise s))
  | illegal (hp : s.PHASE ≠ .error) (e : Illegal) (hd : decode w = .error e) :
      Executed w s (raiseErr .cmd s)
  | seqDone (hp : s.PHASE = .done)
      (hd : (∃ b, decode w = .ok (.data b)) ∨ decode w = .ok .final ∨ decode w = .ok .endraw) :
      Executed w s (raiseErr .seq s)
  | seqReady (hp : s.PHASE = .ready)
      (hd : (∃ k, decode w = .ok (.rdw k)) ∨ (∃ k, decode w = .ok (.rdb k)) ∨
        ∃ k, decode w = .ok (.rdx k)) :
      Executed w s (raiseErr .seq s)
  | len (hp : s.PHASE = .ready) (b : Byte) (hd : decode w = .ok (.data b))
      (hl : s.LEN.toNat = Config.maxLen) : Executed w s (raiseErr .len s)
  | data (hp : s.PHASE = .ready) (b : Byte) (hd : decode w = .ok (.data b))
      (hl : s.LEN.toNat ≠ Config.maxLen) (u : State) (hu : appendByte b s = .next u) :
      Executed w s (respond 0 u)
  | final (hp : s.PHASE = .ready) (hd : decode w = .ok .final) (u : State)
      (hu : padAndCompress s = .next u) : Executed w s (respond 0 { u with PHASE := .done })
  | align (hp : s.PHASE = .ready) (hd : decode w = .ok .endraw) (hf : s.FILL ≠ 0) :
      Executed w s (raiseErr .align s)
  | endraw (hp : s.PHASE = .ready) (hd : decode w = .ok .endraw) (hf : s.FILL = 0) :
      Executed w s (respond 0 { s with PHASE := .done })
  | rdw (hp : s.PHASE = .done) (k : BitVec 3) (hd : decode w = .ok (.rdw k)) :
      Executed w s (respond (s.word k) s)
  | rdb (hp : s.PHASE = .done) (k : BitVec 5) (hd : decode w = .ok (.rdb k)) :
      Executed w s (respond (s.digestByte k) s)
  | rdx (hp : s.PHASE = .done) (k : BitVec 6) (hd : decode w = .ok (.rdx k)) :
      Executed w s (respond (s.digestChar k) s)
  | rdsr (n : BitVec 3) (v : Word) (hd : decode w = .ok (.rdsr n)) (hv : s.statusReg n = some v) :
      Executed w s (respond v s)

/-- Executing a word does one of the things `Executed` lists. -/
theorem executed {w : Cmd} {s t : State} (h : executeWord w s = .next t) : Executed w s t := by
  rcases executeWord_cases h with ⟨i, hd, h⟩ | ⟨e, hd, h⟩
  · cases i with
    | nop => cases h; exact .nop hd
    | init => cases h; exact .init hd
    | data b =>
      rcases execData_cases h with ⟨hp, rfl⟩ | ⟨hp, rfl⟩ | ⟨hp, hl, rfl⟩ | ⟨hp, hl, u, hu, rfl⟩
      · exact .ignored hp (by simp [hd]) (by simp [hd])
      · exact .seqDone hp (by simp [hd])
      · exact .len hp _ hd hl
      · exact .data hp _ hd hl u hu
    | final =>
      rcases execFinal_cases h with ⟨hp, rfl⟩ | ⟨hp, rfl⟩ | ⟨hp, u, hu, rfl⟩
      · exact .ignored hp (by simp [hd]) (by simp [hd])
      · exact .seqDone hp (by simp [hd])
      · exact .final hp hd u hu
    | endraw =>
      rcases execEndraw_cases h with ⟨hp, rfl⟩ | ⟨hp, rfl⟩ | ⟨hp, hl, rfl⟩ | ⟨hp, hl, rfl⟩
      · exact .ignored hp (by simp [hd]) (by simp [hd])
      · exact .seqDone hp (by simp [hd])
      · exact .align hp hd hl
      · exact .endraw hp hd hl
    | rdw k =>
      rcases execRdw_cases h with ⟨hp, rfl⟩ | ⟨hp, rfl⟩ | ⟨hp, rfl⟩
      · exact .ignored hp (by simp [hd]) (by simp [hd])
      · exact .seqReady hp (by simp [hd])
      · exact .rdw hp k hd
    | rdb k =>
      rcases execRdb_cases h with ⟨hp, rfl⟩ | ⟨hp, rfl⟩ | ⟨hp, rfl⟩
      · exact .ignored hp (by simp [hd]) (by simp [hd])
      · exact .seqReady hp (by simp [hd])
      · exact .rdb hp k hd
    | rdx k =>
      rcases execRdx_cases h with ⟨hp, rfl⟩ | ⟨hp, rfl⟩ | ⟨hp, rfl⟩
      · exact .ignored hp (by simp [hd]) (by simp [hd])
      · exact .seqReady hp (by simp [hd])
      · exact .rdx hp k hd
    | rdsr n =>
      obtain ⟨v, hv⟩ := statusReg_isSome (s := s) (decode_rdsr_le hd)
      rcases execRdsr_cases h with ⟨v, hv, rfl⟩ | ⟨hv', -⟩ | ⟨hv', -⟩
      · exact .rdsr n v hd hv
      · simp [hv'] at hv
      · simp [hv'] at hv
  · rcases illegalCommand_cases h with ⟨hp, rfl⟩ | ⟨hp, rfl⟩
    · exact .ignored hp (by simp [hd]) (by simp [hd])
    · exact .illegal hp _ hd

/-- Every way a step can go on. -/
theorem step_cases {s t : State} (h : step s = .next t) :
    (∃ rest, s.inputs = .reset :: rest ∧ t = hardwareReset { s with inputs := rest }) ∨
    ((∀ rest, s.inputs ≠ .reset :: rest) ∧ s.SEQ.stage ≠ .idle ∧ microStep s = .next t) ∨
    (s.inputs = [] ∧ s.SEQ.stage = .idle ∧ t = s) ∨
    (∃ w rest, s.inputs = .command w :: rest ∧ s.SEQ.stage = .idle ∧
      executeWord w { s with inputs := rest } = .next t) := by
  unfold step takeEvent at h
  split at h
  · cases h; exact .inl ⟨_, ‹_›, rfl⟩
  · rename_i w rest hi
    split at h
    · exact .inr (.inr (.inr ⟨w, rest, hi, ‹_›, h⟩))
    · exact .inr (.inl ⟨by simp [hi], ‹_›, h⟩)
  · rename_i hi
    split at h
    · cases h; exact .inr (.inr (.inl ⟨hi, ‹_›, rfl⟩))
    · exact .inr (.inl ⟨by simp [hi], ‹_›, h⟩)

end Sys2Proof.Laws
end

