-- ==== Sys2Proof/Laws/Compressor.lean ====
section
/-! SUPPORT. The laws of the pure functions: reading the schedule after a write, the fold over blocks, and
the conversions between words, bytes, nibbles and numbers. -/

namespace Sys2Proof.Laws

open Sys2Proof Sys2Proof.Machine

/-- A schedule word reads as it was last written, and a write leaves every other word alone. -/
theorem getW_setW (W : Vector Word 64) (t u : BitVec 6) (w : Word) :
    getW (setW W t w) u = if t = u then w else getW W u := by
  have ht := t.isLt
  have hu := u.isLt
  by_cases h : t = u
  · subst h; simp [getW, setW]
  · have h' : t.toNat ≠ u.toNat := fun e => h (BitVec.eq_of_toNat_eq e)
    simp [getW, setW, h, h']

theorem getW_ofNat (W : Vector Word 64) (j : Nat) (h : j < 64) : getW W (BitVec.ofNat 6 j) = W[j] := by
  simp [getW, Nat.mod_eq_of_lt h]

/-- Two index values below 64 are equal as 6-bit indices only where they are equal. -/
theorem ofNat6_inj {a b : Nat} (ha : a < 64) (hb : b < 64) : BitVec.ofNat 6 a = BitVec.ofNat 6 b ↔ a = b := by
  constructor
  · intro e
    have := congrArg BitVec.toNat e
    simp at this
    omega
  · exact fun h => h ▸ rfl

/-- `loadAll` puts the block's words at 0..15 and leaves the others alone. -/
theorem getW_loadAll (B : Vector Byte 64) (W : Vector Word 64) (j : Nat) (hj : j < 64) :
    getW (loadAll B W) (BitVec.ofNat 6 j) =
      if j < 16 then blockWord B (BitVec.ofNat 4 j) else getW W (BitVec.ofNat 6 j) := by
  have key : ∀ n, n ≤ 16 →
      getW ((List.range n).foldl (fun W t => loadStep B W (BitVec.ofNat 4 t)) W) (BitVec.ofNat 6 j) =
        if j < n then blockWord B (BitVec.ofNat 4 j) else getW W (BitVec.ofNat 6 j) := by
    intro n hn
    induction n with
    | zero => simp
    | succ n ih =>
      have e : (BitVec.ofNat 4 n).setWidth 6 = BitVec.ofNat 6 n := by
        apply BitVec.eq_of_toNat_eq
        simp
        omega
      rw [List.range_succ, List.foldl_append, List.foldl_cons, List.foldl_nil, loadStep, getW_setW,
        ih (by omega), e]
      by_cases h : n = j
      · subst h; simp
      · rw [if_neg (by rwa [ofNat6_inj (by omega) hj])]
        by_cases h' : j < n
        · rw [if_pos h', if_pos (by omega)]
        · rw [if_neg h', if_neg (by omega)]
  exact key 16 (le_refl 16)

/-- The first `n` words of the expansion. -/
def expandFirst (W : Vector Word 64) (n : Nat) : Vector Word 64 :=
  (List.range' 16 n).foldl (fun W t => expandStep W (BitVec.ofNat 6 t)) W

theorem expandAll_eq (W : Vector Word 64) : expandAll W = expandFirst W 48 := by
  unfold expandAll expandFirst; rfl

theorem expandFirst_succ (W : Vector Word 64) (n : Nat) :
    expandFirst W (n + 1) = expandStep (expandFirst W n) (BitVec.ofNat 6 (16 + n)) := by
  simp [expandFirst, List.range'_concat]

/-- A word once expanded is not written again, and the words below 16 are never written. -/
theorem getW_expandFirst (W : Vector Word 64) (m n j : Nat) (hmn : m ≤ n) (hn : n ≤ 48) (hj : j < 16 + m) :
    getW (expandFirst W n) (BitVec.ofNat 6 j) = getW (expandFirst W m) (BitVec.ofNat 6 j) := by
  induction n, hmn using Nat.le_induction with
  | base => rfl
  | succ n h ih =>
    rw [expandFirst_succ, expandStep, getW_setW, if_neg (by rw [ofNat6_inj (by omega) (by omega)]; omega),
      ih (by omega)]

/-- The index arithmetic of the recurrence. -/
theorem ofNat6_sub (j k : Nat) (h : k ≤ j) :
    BitVec.ofNat 6 j - BitVec.ofNat 6 k = BitVec.ofNat 6 (j - k) := by
  apply BitVec.eq_of_toNat_eq
  simp [BitVec.toNat_sub]
  omega

/-- The fold over one more block. -/
theorem compressPrefix_succ (p : List Byte) (n : Nat) :
    compressPrefix p (n + 1) = compressBlock (compressPrefix p n) (blockOf p n) := by
  simp [compressPrefix, List.range_succ]

/-- A block of a message is not changed by what follows it. -/
theorem blockOf_append (m l : List Byte) (n : Nat) (h : 64 * (n + 1) ≤ m.length) :
    blockOf (m ++ l) n = blockOf m n := by
  ext1 j hj
  simp only [blockOf, tabulate_getElem, List.getD_eq_getElem?_getD]
  rw [List.getElem?_append_left (by omega)]

/-- The fold over whole blocks of a message is not changed by what follows them. -/
theorem compressPrefix_append (m l : List Byte) (n : Nat) (h : 64 * n ≤ m.length) :
    compressPrefix (m ++ l) n = compressPrefix m n := by
  induction n with
  | zero => simp [compressPrefix]
  | succ n ih => rw [compressPrefix_succ, compressPrefix_succ, ih (by omega), blockOf_append _ _ _ h]

theorem beWord_toNat (a b c d : Byte) :
    (beWord a b c d).toNat = a.toNat * 2 ^ 24 + b.toNat * 2 ^ 16 + c.toNat * 2 ^ 8 + d.toNat := by
  have h1 := b.isLt
  have h2 := c.isLt
  have h3 := d.isLt
  simp only [beWord, BitVec.toNat_append]
  rw [← Nat.shiftLeft_add_eq_or_of_lt (by simpa using h3), ← Nat.shiftLeft_add_eq_or_of_lt (by simpa using h2),
    ← Nat.shiftLeft_add_eq_or_of_lt (by simpa using h1)]
  simp only [Nat.shiftLeft_eq]
  omega

theorem be32_getElem? (x : Word) (j : Nat) (h : j < 4) :
    (be32 x)[j]? = some (BitVec.ofNat 8 (x.toNat / 2 ^ (24 - 8 * j))) := by
  have e : ∀ n, x.extractLsb' n 8 = BitVec.ofNat 8 (x.toNat / 2 ^ n) := by
    intro n
    apply BitVec.eq_of_toNat_eq
    simp [Nat.shiftRight_eq_div_pow]
  simp only [be32, e]
  interval_cases j <;> rfl

theorem be64_getElem? (x : BitVec 64) (j : Nat) (h : j < 8) :
    (be64 x)[j]? = some (BitVec.ofNat 8 (x.toNat / 2 ^ (56 - 8 * j))) := by
  have e : ∀ n, x.extractLsb' n 8 = BitVec.ofNat 8 (x.toNat / 2 ^ n) := by
    intro n
    apply BitVec.eq_of_toNat_eq
    simp [Nat.shiftRight_eq_div_pow]
  simp only [be64, e]
  interval_cases j <;> rfl

theorem padBytes_length (m : List Byte) : (padBytes m).length = m.length + 1 + zeroFill m.length + 8 := by
  simp [padBytes, be64]
  omega

theorem digb_toNat (h : Vector Word 8) (i : BitVec 5) :
    (digb h i).toNat = h[i.toNat / 4].toNat / 2 ^ (24 - 8 * (i.toNat % 4)) % 256 := by
  simp [digb, shr, Nat.shiftRight_eq_div_pow]

theorem nib_toNat (h : Vector Word 8) (i : BitVec 6) :
    (nib h i).toNat = h[i.toNat / 8].toNat / 2 ^ (28 - 4 * (i.toNat % 8)) % 16 := by
  simp [nib, shr, Nat.shiftRight_eq_div_pow]

theorem hexchar_toNat (v : BitVec 4) :
    (hexchar v).toNat = if v.toNat ≤ 9 then 0x30 + v.toNat else 0x57 + v.toNat := by
  have := v.isLt
  unfold hexchar
  split <;> simp <;> omega

end Sys2Proof.Laws
end

