-- ==== Sys2Proof/Laws/PerInstr.lean ====
section
/-! SUPPORT. The family `LegalEncoding`: the word the encoder gives a well-formed command satisfies the
legality predicate of 30_encoding.md R84 and has its reserved bits 0. One lemma per command. -/

namespace Sys2Proof.Laws.LegalEncoding

open Sys2Proof

/-- What the family says of one command, as syntax. -/
def Statement (i : Instr) : Prop := i.wf = true → legal (encode i) = true ∧ rsvField (encode i) = 0

theorem nop : Statement .nop := fun _ => by decide

theorem init : Statement .init := fun _ => by decide

theorem data (b : Byte) : Statement (.data b) := fun _ => by simp [legal, encode]

theorem final : Statement .final := fun _ => by decide

theorem endraw : Statement .endraw := fun _ => by decide

theorem rdw (k : BitVec 3) : Statement (.rdw k) := fun _ => by
  have := k.isLt
  simp [legal, encode]
  omega

theorem rdb (k : BitVec 5) : Statement (.rdb k) := fun _ => by
  have := k.isLt
  simp [legal, encode]
  omega

theorem rdx (k : BitVec 6) : Statement (.rdx k) := fun _ => by
  have := k.isLt
  simp [legal, encode]
  omega

theorem rdsr (n : BitVec 3) : Statement (.rdsr n) := fun h => by
  have h4 : n.toNat ≤ 4 := by simpa [Instr.wf] using h
  simp [legal, encode]
  omega

end Sys2Proof.Laws.LegalEncoding
end

