-- ==== Sys2Proof/Laws/Sequencer.lean ====
section
/-! SUPPORT. What each micro-step of the sequencer can do, and where the machine's step is one. -/

namespace Sys2Proof.Laws

open Sys2Proof Sys2Proof.Machine

/-- While the sequencer runs and no hardware reset is presented, a step is a micro-step. -/
theorem step_micro {s : State} (h : s.SEQ.stage ≠ .idle) (hr : ∀ rest, s.inputs ≠ .reset :: rest) :
    step s = microStep s := by
  unfold step takeEvent
  cases hi : s.inputs with
  | nil => simp [h]
  | cons e rest =>
    cases e with
    | reset => exact absurd hi (hr rest)
    | command w => simp [h]

theorem microLoad_cases {s t : State} (h : microLoad s = .next t) :
    s.SEQ.t.toNat < 16 ∧ ∃ w, s.BUF.readWord (4 * s.SEQ.t.toNat) = .ok w ∧
      t = { s with
        W := setW s.W s.SEQ.t w
        SEQ := if s.SEQ.t = 15 then ⟨.expand, 16⟩ else ⟨.load, s.SEQ.t + 1⟩ } := by
  unfold microLoad at h
  split at h
  · split at h
    · cases h
    · cases h; exact ⟨‹_›, _, ‹_›, rfl⟩
  · cases h

theorem microExpand_cases {s t : State} (h : microExpand s = .next t) :
    16 ≤ s.SEQ.t.toNat ∧
      t = { s with
        W := expandStep s.W s.SEQ.t
        SEQ := if s.SEQ.t = 63 then ⟨.vinit, 0⟩ else ⟨.expand, s.SEQ.t + 1⟩ } := by
  unfold microExpand at h
  split at h
  · cases h; exact ⟨‹_›, rfl⟩
  · cases h

theorem microVinit_cases {s t : State} (h : microVinit s = .next t) :
    s.SEQ.t = 0 ∧ t = { s with V := s.H, SEQ := ⟨.round, 0⟩ } := by
  unfold microVinit at h
  split at h
  · cases h; exact ⟨‹_›, rfl⟩
  · cases h

theorem microAdd_cases {s t : State} (h : microAdd s = .next t) :
    s.SEQ.t = 0 ∧
      t = { s with H := feedForward s.H s.V, BLKCNT := s.BLKCNT + 1, FILL := 0, SEQ := Sequencer.home } := by
  unfold microAdd at h
  split at h
  · cases h; exact ⟨‹_›, rfl⟩
  · cases h

/-- No micro-step touches the buffer, the length, the phase, the error code or the two ends of the port. -/
theorem microStep_frame {s t : State} (h : microStep s = .next t) :
    t.BUF = s.BUF ∧ t.LEN = s.LEN ∧ t.PHASE = s.PHASE ∧ t.ERR = s.ERR ∧ t.inputs = s.inputs ∧
      t.resp = s.resp ∧ t.draws = s.draws := by
  unfold microStep at h
  split at h
  · cases h; simp
  · obtain ⟨-, w, -, rfl⟩ := microLoad_cases h; simp
  · obtain ⟨-, rfl⟩ := microExpand_cases h; simp
  · obtain ⟨-, rfl⟩ := microVinit_cases h; simp
  · cases h; simp
  · obtain ⟨-, rfl⟩ := microAdd_cases h; simp

end Sys2Proof.Laws
end

