-- ==== Sys2Proof/Tests/Slice0.lean ====
section
/-! SUPPORT. Tests: words written out from the opcode map, one-step tests with the expected values of
95_test_vectors.md (the section stands in each comment), and a witness for the hypotheses of each
obligation that has some. -/

namespace Sys2Proof.Tests

open Sys2Proof Sys2Proof.Machine

/-! ### Helpers -/

/-- The state an operation goes on with. -/
def after (r : Result) : Option State :=
  match r with
  | .next s => some s
  | .fault _ => none
  | .refused _ => none

/-- A small state: this phase, error code, hash state and buffered bytes, and counters that fit a message of
these bytes. Scratch holds a pattern that no rule makes. -/
def mk (p : Phase) (e : ErrCode) (h : Vector Word 8) (buf : List Byte) : State where
  H := h
  V := Vector.replicate 8 0xdeadbeef
  W := Vector.replicate 64 0xdeadbeef
  BUF := Memory.writeList [] 0 buf
  FILL := BitVec.ofNat 6 buf.length
  LEN := BitVec.ofNat 61 buf.length
  BLKCNT := 0
  PHASE := p
  ERR := e
  SEQ := Sequencer.home
  inputs := []
  resp := none
  draws := 0

/-- READY, with these bytes received. -/
def ready (buf : List Byte) : State := mk .ready .none IV buf

/-- The hash state of `"abc"` (95_test_vectors.md section 5.3). -/
def abcH : Vector Word 8 :=
  #v[0xba7816bf, 0x8f01cfea, 0x414140de, 0x5dae2223, 0xb00361a3, 0x96177a9c, 0xb410ff61, 0xf20015ad]

/-- DONE after FINAL, with the digest of `"abc"`. -/
def doneAbc : State := { mk .done .none abcH [] with LEN := 3, BLKCNT := 1 }

/-- ERROR with code `ERR_ALIGN` and one byte buffered (section 7.3). -/
def inError : State := mk .error .align IV [0x61]

/-- READY with the longest message received (section 7.2, last rows). -/
def longest : State :=
  { ready (List.replicate 63 0) with LEN := BitVec.ofNat 61 (2 ^ 61 - 1), BLKCNT := 36028797018963967 }

/-- The bytes of `"abc"`. -/
def abc : List Byte := [0x61, 0x62, 0x63]

/-! ### Well-formedness -/

theorem test_wf_refuses_rdsr5 : (Instr.rdsr 5).wf = false := by decide
theorem test_wf_refuses_rdsr6 : (Instr.rdsr 6).wf = false := by decide
theorem test_wf_refuses_rdsr7 : (Instr.rdsr 7).wf = false := by decide
theorem test_wf_accepts_rdsr4 : (Instr.rdsr 4).wf = true := by decide

/-! ### Decoding: words written out bit by bit from 30_encoding.md R82 and 95_test_vectors.md section 7.1 -/

theorem test_decode_nop : decode 0b0000_0000_00000000 = .ok .nop := by decide
theorem test_decode_init : decode 0b0001_0000_00000000 = .ok .init := by decide
theorem test_decode_data : decode 0b0010_0000_01100001 = .ok (.data 0x61) := by decide
theorem test_decode_final : decode 0b0011_0000_00000000 = .ok .final := by decide
theorem test_decode_endraw : decode 0b0100_0000_00000000 = .ok .endraw := by decide
theorem test_decode_rdw : decode 0b0101_0000_00000111 = .ok (.rdw 7) := by decide
theorem test_decode_rdb : decode 0b0110_0000_00011111 = .ok (.rdb 31) := by decide
theorem test_decode_rdx : decode 0b0111_0000_00111111 = .ok (.rdx 63) := by decide
theorem test_decode_rdsr : decode 0b1000_0000_00000100 = .ok (.rdsr 4) := by decide

theorem test_decode_refuses_imm :
    [0x0001, 0x1001, 0x3080].map decode = List.replicate 3 (.error .immNotZero) := by decide
theorem test_decode_refuses_rsv :
    [0x0100, 0x2161, 0x8100].map decode = List.replicate 3 (.error .reservedBits) := by decide
theorem test_decode_refuses_index :
    [0x5008, 0x6020, 0x7040, 0x8005].map decode = List.replicate 4 (.error .indexRange) := by decide
theorem test_decode_refuses_op :
    [0x9000, 0xa000, 0xf000, 0xffff].map decode = List.replicate 4 (.error .reservedOp) := by decide
theorem test_encode_words :
    [.nop, .init, .data 0xff, .final, .endraw, .rdw 7, .rdb 31, .rdx 63, .rdsr 4].map encode =
      [0x0000, 0x1000, 0x20ff, 0x3000, 0x4000, 0x5007, 0x601f, 0x703f, 0x8004] := by decide
theorem test_decodeTableWord : decodeTableWord 16 0x2061 = some (.data 0x61) := by decide
theorem test_decodeTableWord_refuses : decodeTableWord 16 0x8005 = none := by decide

/-! ### Operators (sections 2.1 to 2.5) -/

theorem test_add32_five :
    add32 (add32 (add32 (add32 0x5be0cd19 0x3587272b) 0x1f85c98c) 0x428a2f98) 0x61626380 = 0x54da50e8 := by
  decide
theorem test_rotr : [1, 2, 7, 17, 25, 31].map (rotr 0x12345678) =
    [0x091a2b3c, 0x048d159e, 0xf02468ac, 0x2b3c091a, 0x1a2b3c09, 0x2468acf0] := by decide
theorem test_shr : [3, 10].map (shr 0x6a09e667) = [0x0d413ccc, 0x001a8279] := by decide
theorem test_sigmas :
    (ssig0 0xdeadbeef, ssig1 0xdeadbeef, bsig0 0xdeadbeef, bsig1 0xdeadbeef) =
      (0xabd31b0b, 0x689dbfec, 0xb62e25ac, 0x345e14a3) := by decide
theorem test_ch_maj :
    (ch 0x510e527f 0x9b05688c 0x1f83d9ab, maj 0x510e527f 0x9b05688c 0x1f83d9ab) =
      (0x1f85c98c, 0x1b0758af) := by decide
theorem test_be64_length : be64 (bitLen 1000000) = [0, 0, 0, 0, 0, 0x7a, 0x12, 0] := by decide
theorem test_be64_longest :
    be64 (bitLen (BitVec.ofNat 61 (2 ^ 61 - 1))) = [0xff, 0xff, 0xff, 0xff, 0xff, 0xff, 0xff, 0xf8] := by
  decide

/-! ### Padder, compressor, formatter (sections 3 to 6) -/

theorem test_zeroFill : [0, 54, 55, 56, 63, 64, 120].map zeroFill = [55, 1, 0, 63, 56, 55, 63] := by decide
theorem test_pad_abc :
    pad abc = some (abc ++ [0x80] ++ List.replicate 52 0 ++ [0, 0, 0, 0, 0, 0, 0, 0x18]) := by decide
/-- Section 4.2: the first 64 byte values in order. -/
theorem test_compress_counting :
    compressBlock IV (tabulate 64 (fun j => BitVec.ofNat 8 j)) =
      #v[0xfc99a2df, 0x88f42a7a, 0x7bb9d180, 0x33cdc6a2, 0x0256755f, 0x9d5b9a50, 0x44a9cc31, 0x5abe84a7] := by
  decide +kernel
/-- Sections 5.1 and 5.2: the last schedule word and the working variables of the block of `"abc"`. -/
theorem test_scratch_abc :
    (schedule (blockOf (padBytes abc) 0))[63] = 0x12b1edeb ∧
      roundsAll (schedule (blockOf (padBytes abc) 0)) IV =
        #v[0x506e3058, 0xd39a2165, 0x04d24d6c, 0xb85e2ce9, 0x5ef50f24, 0xfb121210, 0x948d25b6,
          0x961f4894] := by
  decide +kernel
/-- Section 3.3: a message of two blocks, end to end. -/
theorem test_sha256_56 :
    (sha256 (List.replicate 56 0x61)).map (·.take 8) = some ("b35439a4".toList.map (BitVec.ofNat 8 ·.toNat)) := by
  decide +kernel
/-- Section 6, fourth row: leading zeros are kept. -/
theorem test_format_zeros :
    (formatBytes #v[0, 0xa, 0xff, 0x100, 0x0abcdef0, 0x10000000, 0x01234567, 0x89abcdef]).drop 16 =
      [0x0a, 0xbc, 0xde, 0xf0, 0x10, 0, 0, 0, 0x01, 0x23, 0x45, 0x67, 0x89, 0xab, 0xcd, 0xef] := by decide

/-! ### The buffer -/

theorem test_memory_sorted : Memory.write (Memory.write (Memory.write [] 5 1) 2 3) 5 4 = [(2, 3), (5, 4)] := by decide
theorem test_memory_word : Memory.readWord [(4, 0x61), (5, 0x62), (6, 0x63), (7, 0x80)] 4 =
    .ok 0x61626380 := by decide
theorem test_memory_unwritten : Memory.readWord [(4, 0x61), (5, 0x62), (7, 0x80)] 4 = .error 6 := by decide

/-! ### Text -/

/-- R88: `"abc"` is 0x61, 0x62, 0x63. -/
theorem test_msgText : msgText "abc" = some [.data 0x61, .data 0x62, .data 0x63] := by decide
/-- A character without an ASCII code, of which R88 says nothing (log entry 17). -/
theorem test_msgText_not_ascii : msgText "é" = none := by decide

/-! ### One step of each command -/

/-- Section 7.3. -/
theorem test_nop_in_error : (after (exec .nop inError)).map (fun t => (t.resp, t.ERR)) =
    some (some ⟨0, false, true⟩, .align) := by decide
/-- Section 7.3, and section 1.3 for the initial value. -/
theorem test_init_leaves_error :
    (after (exec .init inError)).map (fun t => (t.H[7], t.FILL, t.PHASE, t.ERR, t.resp)) =
      some (0x5be0cd19, 0, .ready, .none, some ⟨0, false, false⟩) := by decide
/-- Section 7.2, last row but one: the byte is not stored. -/
theorem test_data_too_long :
    (after (exec (.data 0) longest)).map (fun t => (t.PHASE, t.ERR, t.FILL, t.BUF.read 63, t.resp)) =
      some (.error, .len, 63, none, some ⟨0, false, true⟩) := by decide
/-- Section 4.2: the 64th byte compresses the all-zero block. -/
theorem test_data_completes_block :
    (after (exec (.data 0) (ready (List.replicate 63 0)))).map
      (fun t => (t.H[0], t.H[7], t.FILL, t.LEN, t.BLKCNT)) =
      some (0xda5698be, 0x1837a9d8, 0, 64, 1) := by decide +kernel
/-- Section 5.3. -/
theorem test_final_abc :
    (after (exec .final (ready abc))).map (fun t => (t.H, t.BLKCNT, t.PHASE, t.resp)) =
      some (abcH, 1, .done, some ⟨0, true, false⟩) := by decide +kernel
/-- Section 3.3: two blocks. -/
theorem test_final_two_blocks :
    (after (exec .final (ready (List.replicate 56 0x61)))).map (fun t => (t.H[0], t.H[7], t.BLKCNT)) =
      some (0xb35439a4, 0x6ec6738a, 2) := by decide +kernel
/-- Section 7.2, first row. -/
theorem test_endraw_misaligned :
    (after (exec .endraw (ready [0x61]))).map (fun t => (t.PHASE, t.ERR, t.FILL, t.resp)) =
      some (.error, .align, 1, some ⟨0, false, true⟩) := by decide
/-- Section 4.1. -/
theorem test_endraw_empty :
    (after (exec .endraw (ready []))).map (fun t => (t.H, t.PHASE, t.BLKCNT)) =
      some (IV, .done, 0) := by decide
/-- Section 6, element picks. -/
theorem test_rdw : (after (exec (.rdw 7) doneAbc)).map State.resp =
    some (some ⟨0xf20015ad, true, false⟩) := by decide
/-- Section 7.2, second row. -/
theorem test_rdw_too_early :
    (after (exec (.rdw 0) (ready []))).map (fun t => (t.PHASE, t.ERR, t.resp)) =
      some (.error, .seq, some ⟨0, false, true⟩) := by decide
theorem test_rdb : [3, 4, 31].map (fun i => (after (exec (.rdb i) doneAbc)).map State.resp) =
    [0xbf, 0x8f, 0xad].map (fun d => some (some ⟨d, true, false⟩)) := by decide
theorem test_rdx : [0, 7, 8, 63].map (fun i => (after (exec (.rdx i) doneAbc)).map State.resp) =
    [0x62, 0x66, 0x38, 0x64].map (fun d => some (some ⟨d, true, false⟩)) := by decide
/-- Section 7.4. -/
theorem test_rdsr_status :
    [inError, mk .error .len IV (List.replicate 63 0), { doneAbc with PHASE := .error, ERR := .seq },
        ready abc].map (fun s => (after (exec (.rdsr 0) s)).map State.resp) =
      [some (some ⟨0x112, false, true⟩), some (some ⟨0x3f22, false, true⟩),
        some (some ⟨0x32, false, true⟩), some (some ⟨0x300, false, false⟩)] := by decide
/-- Section 7.2, last rows: `LEN` = 2^61 − 1 and `BLKCNT` = 2^55 − 1 through their status registers. -/
theorem test_rdsr_counters :
    [1, 2, 3, 4].map longest.statusReg =
      [some 0xffffffff, some 0x1fffffff, some 0xffffffff, some 0x7fffff] := by decide

/-! ### The port -/

/-- Section 7.2: `ERR_CMD` takes priority over `ERR_SEQ`. -/
theorem test_illegal_in_done :
    (after (executeWord 0x2161 doneAbc)).map (fun t => (t.PHASE, t.ERR, t.H, t.resp)) =
      some (.error, .cmd, abcH, some ⟨0, false, true⟩) := by decide
/-- Section 7.3: an illegal word in phase ERROR is ignored. -/
theorem test_illegal_in_error :
    (after (executeWord 0x9000 inError)).map (fun t => (t.ERR, t.resp)) =
      some (.align, some ⟨0, false, true⟩) := by decide
theorem test_withFetchWord :
    (after (step (State.reset.withFetchWord 16 0x2061))).map (fun t => (t.FILL, t.LEN, t.BUF, t.inputs)) =
      some (1, 1, [(0, 0x61)], []) := by decide
theorem test_reset_event :
    (after (step { doneAbc with inputs := [.reset, .command 0x0000] })).map
      (fun t => (t.H, t.PHASE, t.BLKCNT, t.inputs)) = some (IV, .ready, 0, [.command 0x0000]) := by decide
/-- Section 5.1: the first micro-step loads `W[0]` and no command is taken meanwhile. -/
theorem test_micro_load :
    (after (step { beginBlock (ready (padBytes abc)) with inputs := [.command 0x0000] })).map
      (fun t => (t.W[0], t.W[1], t.SEQ, t.inputs)) =
      some (0x61626380, 0xdeadbeef, ⟨.load, 1⟩, [.command 0x0000]) := by decide
/-- Section 5.2, row 0. -/
theorem test_micro_round :
    (after (microStep { ready [] with
      V := IV, W := (Vector.replicate 64 0).set 0 0x61626380, SEQ := ⟨.round, 0⟩ })).map
      (fun t => (t.V, t.SEQ)) =
      some (#v[0x5d6aebcd, 0x6a09e667, 0xbb67ae85, 0x3c6ef372, 0xfa2a4622, 0x510e527f, 0x9b05688c,
        0x1f83d9ab], ⟨.round, 1⟩) := by decide
/-- An index that stage never has. -/
theorem test_micro_range : (after (microStep { ready [] with SEQ := ⟨.load, 16⟩ })).isNone = true := by decide

/-! ### Witnesses: states and operands that meet the hypotheses of each obligation that has some, clause by
clause, at the ends of the ranges -/

/-- A state whose 64 buffer bytes are all written, at rest. -/
def full : State := ready (List.replicate 64 0x61)

/-- 63 bytes received, at rest. -/
def almost : State := ready (List.replicate 63 0)

/-- READY after exactly one block of zeros. -/
def oneBlock : State :=
  { ready [] with H := compressPrefix (List.replicate 64 0) 1, LEN := 64, BLKCNT := 1 }

/-- The bytes below `FILL` are written in every state these tests start from. -/
theorem almost_written : ∀ a, a < almost.FILL.toNat → (almost.BUF.read a).isSome = true := by decide

theorem abc_written : ∀ a, a < (ready abc).FILL.toNat → ((ready abc).BUF.read a).isSome = true := by decide

theorem witness_EncodedCommandDecodesToItself :
    (Instr.rdsr 4).wf = true ∧ (Instr.rdx 63).wf = true ∧ (Instr.data 0xff).wf = true := by decide
theorem witness_DecodedWordIsItsOwnEncoding : decode 0x8004 = .ok (.rdsr 4) := by decide
theorem witness_StepRunsTheDecodedCommand :
    (presentWord 0x2061 (ready abc)).inputs = .command 0x2061 :: [] ∧
      (presentWord 0x2061 (ready abc)).SEQ.stage = .idle ∧ decode 0x2061 = .ok (.data 0x61) ∧
      (presentWord 0x8005 doneAbc).inputs = .command 0x8005 :: [] ∧
      (presentWord 0x8005 doneAbc).SEQ.stage = .idle ∧ decode 0x8005 = .error .indexRange ∧
      doneAbc.PHASE ≠ .error ∧ (presentWord 0x9000 inError).inputs = .command 0x9000 :: [] ∧
      (presentWord 0x9000 inError).SEQ.stage = .idle ∧ decode 0x9000 = .error .reservedOp ∧
      inError.PHASE = .error := by decide
theorem witness_IdleEngineHoldsItsState :
    (ready abc).inputs = [] ∧ (ready abc).SEQ.stage = .idle := by decide
theorem witness_CommandFrameChecksPhaseThenLegality :
    (inError.PHASE = .error ∧ (0x3000 : Cmd) ≠ 0x1000 ∧ ∀ n : BitVec 3, decode 0x3000 ≠ .ok (.rdsr n)) ∧
    (doneAbc.PHASE ≠ .error ∧ legal 0x2161 = false) ∧ legal 0x8004 = true ∧
    ({ longest with PHASE := .done }.PHASE = .done ∧ decode 0x20ff = .ok (.data 0xff) ∧
      decode 0x4000 = .ok .endraw) ∧
    ((ready []).PHASE = .ready ∧ decode 0x703f = .ok (.rdx 63)) ∧
    ∃ t, executeWord 0x5000 (ready []) = .next t ∧ (ready []).PHASE ≠ .error ∧ t.PHASE = .error :=
  ⟨⟨rfl, by decide, by decide⟩, ⟨by decide, by decide⟩, by decide, ⟨rfl, by decide, by decide⟩,
    ⟨rfl, by decide⟩, _, rfl, by decide, rfl⟩
theorem witness_EveryCommandAnswersTheValueReadOrZero : ∃ t, executeWord 0x5007 doneAbc = .next t := ⟨_, rfl⟩
theorem witness_InitStartsAFreshInvocation : ∃ t, exec .init inError = .next t := ⟨_, rfl⟩
theorem witness_DataStoresItsByteAndCompressesAFullBlock :
    inError.PHASE = .error ∧ doneAbc.PHASE = .done ∧
    (longest.PHASE = .ready ∧ longest.LEN.toNat = 2 ^ 61 - 1) ∧
    ((ready []).PHASE = .ready ∧ (ready []).LEN.toNat ≠ 2 ^ 61 - 1 ∧ (ready []).FILL.toNat < 63) ∧
    (ready (List.replicate 62 0)).FILL.toNat = 62 ∧
    (almost.PHASE = .ready ∧ almost.LEN.toNat ≠ 2 ^ 61 - 1 ∧ almost.FILL.toNat = 63 ∧
      ∀ a, a < 63 → (almost.BUF.read a).isSome = true) := by decide
theorem witness_FinalCompletesOneBlock :
    ((ready []).PHASE = .ready ∧ (ready []).FILL.toNat ≤ 55) ∧
    (ready (List.replicate 55 0)).FILL.toNat = 55 ∧
    ∀ a, a < (ready (List.replicate 55 0)).FILL.toNat →
      ((ready (List.replicate 55 0)).BUF.read a).isSome = true := by decide
theorem witness_FinalCompletesTwoBlocks :
    (almost.PHASE = .ready ∧ 56 ≤ almost.FILL.toNat) ∧ (ready (List.replicate 56 0)).FILL.toNat = 56 ∧
    ∀ a, a < (ready (List.replicate 56 0)).FILL.toNat →
      ((ready (List.replicate 56 0)).BUF.read a).isSome = true := by decide
theorem witness_FinalOutsideReadyIsRefused : doneAbc.PHASE = .done ∧ inError.PHASE = .error := by decide
theorem witness_absorbed_nothing : Absorbed (ready []) [] :=
  ⟨rfl, rfl, rfl, rfl, rfl, rfl, rfl, fun j hj => absurd hj (Nat.not_lt_zero j)⟩
theorem witness_absorbed_abc : Absorbed (ready abc) abc where
  phase := rfl
  err := rfl
  idle := rfl
  len := by decide
  fill := by decide
  blkcnt := by decide
  hash := rfl
  bytes := by decide
theorem witness_absorbed_63 : Absorbed almost (List.replicate 63 0) where
  phase := rfl
  err := rfl
  idle := rfl
  len := by decide
  fill := by decide
  blkcnt := by decide
  hash := rfl
  bytes := by decide
theorem witness_absorbed_block : Absorbed oneBlock (List.replicate 64 0) ∧ oneBlock.FILL = 0 where
  left :=
    { phase := rfl, err := rfl, idle := rfl, len := by decide, fill := by decide, blkcnt := by decide
      hash := by simp [oneBlock], bytes := by decide }
  right := by decide
theorem witness_EndrawEndsAWholeNumberOfBlocks :
    inError.PHASE = .error ∧ doneAbc.PHASE = .done ∧
    ((ready [0x61]).PHASE = .ready ∧ (ready [0x61]).FILL ≠ 0) ∧
    ((ready []).PHASE = .ready ∧ (ready []).FILL = 0) ∧ ∃ t, exec .init inError = .next t :=
  ⟨rfl, rfl, ⟨rfl, by decide⟩, ⟨rfl, rfl⟩, _, rfl⟩
theorem witness_RdwReadsAStateWord :
    doneAbc.PHASE = .done ∧ (ready []).PHASE = .ready ∧ inError.PHASE = .error ∧
    0x5008 ≤ (0x5008 : Cmd).toNat ∧ (0x5fff : Cmd).toNat < 0x6000 := by decide
theorem witness_RdbReadsADigestByte :
    doneAbc.PHASE = .done ∧ (ready []).PHASE = .ready ∧ inError.PHASE = .error ∧
    0x6020 ≤ (0x6020 : Cmd).toNat ∧ (0x6fff : Cmd).toNat < 0x7000 := by decide
theorem witness_RdxReadsADigestCharacter :
    doneAbc.PHASE = .done ∧ (ready []).PHASE = .ready ∧ inError.PHASE = .error ∧
    0x7040 ≤ (0x7040 : Cmd).toNat ∧ (0x7fff : Cmd).toNat < 0x8000 := by decide
theorem witness_RdsrReadsAStatusRegister :
    (4 : BitVec 3).toNat ≤ 4 ∧ 0x8005 ≤ (0x8005 : Cmd).toNat ∧ (0x8fff : Cmd).toNat < 0x9000 ∧
    doneAbc.PHASE ≠ .error ∧ inError.PHASE = .error := by decide
theorem witness_CounterRegistersHoldLenAndBlkcnt :
    1 ≤ (1 : BitVec 3).toNat ∧ (4 : BitVec 3).toNat ≤ 4 ∧
    ∃ t, executeWord 0x2061 (ready []) = .next t ∧ t.LEN ≠ (ready []).LEN :=
  ⟨by decide, by decide, _, rfl, by decide⟩
theorem witness_LenCountsDataBytesAndNeverWraps : ∃ t, executeWord 0x2061 (ready abc) = .next t := ⟨_, rfl⟩

/-- The invariant in each phase, with an event presented. -/
theorem witness_inv_ready : BoundaryInv { ready abc with inputs := [.command 0x2061] } where
  seqHome := rfl
  errPhase := by decide
  bufWf := by decide
  written := abc_written
  counts := show MidCounts _ from ⟨by decide, by decide⟩
  outputs := fun r hr => absurd hr (by simp [ready, mk])
theorem witness_inv_done : BoundaryInv { doneAbc with inputs := [.command 0x703f] } where
  seqHome := rfl
  errPhase := by decide
  bufWf := by decide
  written := by decide
  counts := .inl ⟨by decide, by decide⟩
  outputs := fun r hr => absurd hr (by simp [doneAbc, mk])
theorem witness_inv_error : BoundaryInv { inError with inputs := [.command 0x1000] } where
  seqHome := rfl
  errPhase := by decide
  bufWf := by decide
  written := by decide
  counts := .inl ⟨by decide, by decide⟩
  outputs := fun r hr => absurd hr (by simp [inError, mk])
theorem witness_EveryStepKeepsTheInvariant :
    BoundaryInv { ready abc with inputs := [.command 0x2061] } ∧
      ∃ t, step { ready abc with inputs := [.command 0x2061] } = .next t := ⟨witness_inv_ready, _, rfl⟩
theorem witness_ResetAndInitPutTheSameValues :
    (∃ t, t = State.reset ∨ t = hardwareReset doneAbc ∨ exec .init doneAbc = .next t) ∧
    (0 : BitVec 3).toNat ≤ 4 ∧ ∃ t, exec .init doneAbc = .next t := ⟨⟨_, .inl rfl⟩, by decide, _, rfl⟩
theorem witness_HardwareResetIsTakenAtAnyTime :
    { beginBlock full with inputs := [.reset] }.inputs = .reset :: [] := rfl
theorem witness_ErrorEntryIsPrecise :
    doneAbc.PHASE ≠ .error ∧ ∃ t, executeWord 0x3000 doneAbc = .next t ∧ t.PHASE = .error :=
  ⟨by decide, _, rfl, rfl⟩
theorem witness_EachErrorHasItsCause :
    (ready abc).PHASE ≠ .error ∧ ∃ t, executeWord 0x4000 (ready abc) = .next t ∧ t.ERR = .align :=
  ⟨by decide, _, rfl, rfl⟩
theorem witness_PhaseErrorAdmitsOnlyInitAndRdsr :
    inError.PHASE = .error ∧ decode 0x1000 = .ok .init ∧ decode 0x8004 = .ok (.rdsr 4) ∧
    decode 0x9000 ≠ .ok .init ∧ ∀ n : BitVec 3, decode 0x9000 ≠ .ok (.rdsr n) := by decide
theorem witness_ErrorsDoNotNest :
    inError.PHASE = .error ∧ inError.SEQ.stage = .idle ∧
    (∃ rest, { inError with inputs := [.command 0x1000] }.inputs = .command 0x1000 :: rest ∨
      { inError with inputs := [.command 0x1000] }.inputs = .reset :: rest) ∧
    ¬ ∃ rest, inError.inputs = .command 0x1000 :: rest ∨ inError.inputs = .reset :: rest :=
  ⟨rfl, rfl, ⟨[], .inl rfl⟩, by simp [inError, mk]⟩
theorem witness_PhaseTransitionsAreTheTable :
    (∃ t, executeWord 0x4000 (ready []) = .next t) ∧ (ready []).PHASE = .ready ∧
    (∃ t, executeWord 0x5007 doneAbc = .next t) ∧ doneAbc.PHASE = .done ∧
    (∃ t, executeWord 0x2061 inError = .next t) ∧ inError.PHASE = .error :=
  ⟨⟨_, rfl⟩, rfl, ⟨_, rfl⟩, rfl, ⟨_, rfl⟩, rfl⟩
theorem witness_CommandsThatStoreNothingKeepAllButPhaseAndErr :
    (∃ t, exec .nop doneAbc = .next t) ∧ (∃ t, exec .endraw (ready []) = .next t) ∧
    (∃ t, exec (.rdw 7) doneAbc = .next t) ∧ (∃ t, exec (.rdb 31) doneAbc = .next t) ∧
    (∃ t, exec (.rdx 63) doneAbc = .next t) ∧ (∃ t, exec (.rdsr 4) doneAbc = .next t) ∧
    (∃ t, exec (.rdsr 5) doneAbc = .next t) ∧ doneAbc.PHASE ≠ .error :=
  ⟨⟨_, rfl⟩, ⟨_, rfl⟩, ⟨_, rfl⟩, ⟨_, rfl⟩, ⟨_, rfl⟩, ⟨_, rfl⟩, ⟨_, rfl⟩, by decide⟩
theorem witness_DataChangesOneByteOfTheBuffer :
    (∃ t, exec (.data 0) (ready abc) = .next t) ∧ (∃ t, exec (.data 0) almost = .next t) ∧
    (ready abc).PHASE = .ready ∧ (ready abc).LEN.toNat ≠ 2 ^ 61 - 1 ∧ 2 ≠ (ready abc).FILL.toNat :=
  ⟨⟨_, rfl⟩, Laws.exec_next almost_written, rfl, by decide, by decide⟩
theorem witness_FinalStoresOnlyThePadding :
    (∃ t, exec .final (ready abc) = .next t) ∧ (∃ t, exec .final almost = .next t) ∧
    (∃ t, exec .final doneAbc = .next t) :=
  ⟨Laws.exec_next abc_written, Laws.exec_next almost_written, _, rfl⟩
theorem witness_HashStateIsWrittenByInitAndCompressionOnly :
    (∃ t, executeWord 0x1000 doneAbc = .next t) ∧ decode 0x1000 = .ok .init ∧
    (∃ t, exec (.data 0) almost = .next t) ∧ executeWord 0x2000 almost = exec (.data 0) almost ∧
    almost.PHASE = .ready ∧ almost.LEN.toNat ≠ 2 ^ 61 - 1 ∧ almost.FILL.toNat = 63 ∧
    (∃ t, exec .final almost = .next t) ∧ executeWord 0x3000 almost = exec .final almost ∧
    (∃ t, exec .final (ready (List.replicate 55 0)) = .next t) ∧
    executeWord 0x3000 (ready (List.replicate 55 0)) = exec .final (ready (List.replicate 55 0)) ∧
    (ready (List.replicate 55 0)).FILL.toNat = 55 ∧
    (∃ t, executeWord 0x2000 (ready abc) = .next t) ∧ decode 0x2000 ≠ .ok .init ∧
    (ready abc).FILL.toNat ≠ 63 ∧ decode 0x2000 ≠ .ok .final :=
  ⟨⟨_, rfl⟩, by decide, Laws.exec_next almost_written, rfl, rfl, by decide, by decide,
    Laws.exec_next almost_written, rfl, Laws.exec_next (by decide), rfl, by decide, ⟨_, rfl⟩, by decide,
    by decide, by decide⟩
theorem witness_operator_ranges :
    (1 ≤ 1 ∧ 31 ≤ 31 ∧ 31 < 32) ∧ (15 < 16) ∧ (16 ≤ 16 ∧ 63 < 64) ∧ 7 < 8 ∧ 31 < 32 := by decide
theorem witness_CompressBufCompressesTheBuffer :
    ∀ a, a < 64 → (full.BUF.read a).isSome = true := by decide
theorem witness_MicroStepsRefineCompressBuf :
    full.SEQ = ⟨.idle, 0⟩ ∧ (∀ a, a < 64 → (full.BUF.read a).isSome = true) ∧
    ∀ rest, full.inputs ≠ .reset :: rest := ⟨rfl, by decide, by simp [full, ready, mk]⟩
theorem witness_ZeroFillIsTheSmallest : (56 + 1 + 63) % 64 = 56 ∧ (55 + 1 + 0) % 64 = 56 := by decide
theorem witness_PaddedMessageOffsetByOffset :
    abc.length ≤ 2 ^ 61 - 1 ∧ 2 < abc.length ∧ abc.length < 4 ∧ 55 ≤ abc.length + zeroFill abc.length ∧
      7 < 8 := by decide
theorem witness_PaddedLengthIsWholeBlocks :
    (∃ P, pad abc = some P) ∧ abc.length % 64 ≤ 55 ∧ (∃ P, pad (List.replicate 56 0) = some P) ∧
    56 ≤ (List.replicate 56 (0 : Byte)).length % 64 := ⟨⟨_, rfl⟩, by decide, ⟨_, rfl⟩, by decide⟩
theorem witness_DigestFormsAreInterchangeable :
    formatBytes abcH = formatBytes abcH ∧ formatHex abcH = formatHex abcH := ⟨rfl, rfl⟩
theorem witness_Sha256CommandsComputeSha256 :
    abc.length ≤ 2 ^ 61 - 1 ∧
    { inError with inputs := issue (sha256Seq abc ++ rdHex) ++ [] }.SEQ.stage = .idle ∧
    { inError with inputs := issue (sha256Seq abc ++ rdHex) ++ [] }.inputs =
      issue (sha256Seq abc ++ rdHex) ++ [] ∧
    { inError with inputs := .reset :: (issue (msg abc ++ [Instr.final]) ++ []) }.inputs =
      .reset :: (issue (msg abc ++ [Instr.final]) ++ []) := ⟨by decide, rfl, rfl, rfl⟩
theorem witness_CompressCommandsComputeCompress :
    pad abc = some (padBytes abc) ∧ (padBytes abc).length ≤ 2 ^ 61 - 1 ∧
    (padBytes abc).length % 64 = 0 ∧ abc.length % 64 ≠ 0 ∧
    { inError with inputs := issue (sha256Seq abc) }.SEQ.stage = .idle ∧
    { doneAbc with inputs := issue (compressSeq (padBytes abc)) }.SEQ.stage = .idle ∧
    { doneAbc with inputs := issue (compressSeq (padBytes abc)) }.inputs =
      issue (compressSeq (padBytes abc)) := ⟨rfl, by decide, by decide, by decide, rfl, rfl, rfl⟩
theorem witness_ScratchIsNeverObserved :
    SameButScratch (ready abc)
      { ready abc with V := IV, W := Vector.replicate 64 0, BUF := Memory.write (ready abc).BUF 3 0xff } ∧
    (ready abc).SEQ.stage = .idle ∧ ∃ t, step (ready abc) = .next t :=
  ⟨⟨rfl, rfl, rfl, rfl, rfl, rfl, rfl, rfl, rfl, by decide⟩, rfl, _, rfl⟩
theorem witness_InitErasesThePast :
    ∃ s', { inError with inputs := [.command 0x1000] }.SEQ.stage = .idle ∧
      { doneAbc with inputs := [.command 0x1000] }.SEQ.stage = .idle ∧
      { inError with inputs := [.command 0x1000] }.inputs = .command 0x1000 :: [] ∧
      { doneAbc with inputs := [.command 0x1000] }.inputs = .command 0x1000 :: [] ∧
      Sys2Proof.core.run (0 + 1) { inError with inputs := [.command 0x1000] } = .next s' :=
  ⟨_, rfl, rfl, rfl, rfl, rfl⟩

end Sys2Proof.Tests
end

section
/-! SUPPORT. INIT erases the past (10_state.md R40): no operation, step or run of the machine observes
scratch (R38), so two states at rest that take an INIT go on alike. -/

namespace Sys2Proof.Proofs

open Sys2Proof Sys2Proof.Machine Sys2Proof.Laws

/-! ### One step, by the event presented -/

theorem step_of_reset {s : State} {rest : List HostEvent} (h : s.inputs = .reset :: rest) :
    step s = .next (hardwareReset { s with inputs := rest }) := by
  simp [step, takeEvent, h]

theorem step_of_command {s : State} {w : Cmd} {rest : List HostEvent} (h : s.inputs = .command w :: rest)
    (hs : s.SEQ.stage = .idle) : step s = executeWord w { s with inputs := rest } := by
  simp [step, takeEvent, h, hs]

theorem step_of_nothing {s : State} (h : s.inputs = []) (hs : s.SEQ.stage = .idle) : step s = .next s := by
  simp [step, takeEvent, h, hs]

/-- Executing a word leaves the sequencer at rest. -/
theorem executeWord_idle {w : Cmd} {s t : State} (hs : s.SEQ.stage = .idle)
    (h : executeWord w s = .next t) : t.SEQ.stage = .idle := by
  cases executed h with
  | init => rfl
  | data _ _ _ _ u hu =>
    obtain ⟨-, -, hseq, -⟩ := appendByte_fields hu
    simpa [hseq] using hs
  | final _ _ u hu =>
    obtain ⟨-, -, hseq, -⟩ := padAndCompress_fields hu
    simpa [hseq] using hs
  | _ => exact hs

/-- From rest, a step leaves the sequencer at rest. -/
theorem step_idle {s t : State} (hs : s.SEQ.stage = .idle) (h : step s = .next t) :
    t.SEQ.stage = .idle := by
  rcases step_cases h with ⟨rest, -, rfl⟩ | ⟨-, hn, -⟩ | ⟨-, -, rfl⟩ | ⟨w, rest, -, -, h⟩
  · rfl
  · exact absurd hs hn
  · exact hs
  · exact executeWord_idle (s := { s with inputs := rest }) hs h

/-- A step that goes on, and the run after it. -/
theorem run_of_step {k : Nat} {s u : State} (h : step s = .next u) : core.run (k + 1) s = core.run k u := by
  simp only [Host.Core.run, Host.Check.core_step, h]

/-- A run that goes on is a step that goes on and the run after it. -/
theorem run_cases {k : Nat} {s t : State} (h : core.run (k + 1) s = .next t) :
    ∃ u, step s = .next u ∧ core.run k u = .next t := by
  cases hs : step s with
  | next u => exact ⟨u, rfl, run_of_step hs ▸ h⟩
  | fault r => simp [Host.Core.run, Host.Check.core_step, hs] at h
  | refused r => simp [Host.Core.run, Host.Check.core_step, hs] at h

/-! ### The named updates keep two states alike -/

/-- After INIT two states are alike whatever they held before (R39, R40). -/
theorem sameButScratch_initialise {s t : State} (hi : s.inputs = t.inputs) :
    SameButScratch (respond 0 (initialise s)) (respond 0 (initialise t)) :=
  ⟨rfl, rfl, rfl, rfl, rfl, rfl, rfl, hi, rfl, fun a ha => absurd ha (Nat.not_lt_zero a)⟩

theorem sameButScratch_hardwareReset {s t : State} (hi : s.inputs = t.inputs) :
    SameButScratch (hardwareReset s) (hardwareReset t) :=
  ⟨rfl, rfl, rfl, rfl, rfl, rfl, rfl, hi, rfl, fun a ha => absurd ha (Nat.not_lt_zero a)⟩

section
variable {s t : State} (h : SameButScratch s t)
include h

theorem sameButScratch_inputs (l : List HostEvent) :
    SameButScratch { s with inputs := l } { t with inputs := l } :=
  { h with inputs := rfl }

theorem sameButScratch_phase (p : Phase) :
    SameButScratch { s with PHASE := p } { t with PHASE := p } :=
  { h with PHASE := rfl }

theorem sameButScratch_respond (d : Word) : SameButScratch (respond d s) (respond d t) :=
  { h with resp := by simp [State.doneOut, State.errOut, h.PHASE] }

theorem sameButScratch_raiseErr (c : ErrCode) : SameButScratch (raiseErr c s) (raiseErr c t) :=
  { h with PHASE := rfl, ERR := rfl, resp := rfl }

theorem sameButScratch_withBuf {m n : Memory} (hmn : ∀ a, a < 64 → m.read a = n.read a) :
    SameButScratch (withBuf m s) (withBuf n t) :=
  { h with bytes := fun a ha => hmn a (ha.trans s.FILL.isLt) }

/-- A block compression reads no scratch: where all 64 bytes of `BUF` are alike, so is what it leaves. -/
theorem sameButScratch_compressed (hb : ∀ a, a < 64 → s.BUF.read a = t.BUF.read a) :
    SameButScratch (compressed s) (compressed t) :=
  { h with
    H := by simp [h.H, block_congr hb]
    FILL := rfl
    BLKCNT := by simp [h.BLKCNT]
    bytes := fun a ha => absurd ha (Nat.not_lt_zero a) }

theorem statusReg_congr (n : BitVec 3) : s.statusReg n = t.statusReg n := by
  simp only [State.statusReg, State.sr0, State.sr1, State.sr2, State.sr3, State.sr4, h.PHASE, h.ERR,
    h.FILL, h.LEN, h.BLKCNT]

end

/-! ### Operations that answer alike -/

/-- Wherever the first answer is a next state, the second is one that differs from it in scratch only. -/
def FollowsButScratch (r r' : Result) : Prop :=
  ∀ s', r = .next s' → ∃ t', r' = .next t' ∧ SameButScratch s' t'

theorem followsButScratch_next {s t : State} (h : SameButScratch s t) :
    FollowsButScratch (.next s) (.next t) := by
  rintro _ ⟨⟩
  exact ⟨t, rfl, h⟩

theorem followsButScratch_andThen {r r' : Result} {f g : State → Result} (hr : FollowsButScratch r r')
    (hfg : ∀ u v, SameButScratch u v → FollowsButScratch (f u) (g v)) :
    FollowsButScratch (andThen r f) (andThen r' g) := by
  intro s' hs
  obtain ⟨u, hu, hs⟩ := andThen_cases hs
  obtain ⟨v, rfl, huv⟩ := hr u hu
  exact hfg u v huv s' hs

/-- FINAL's last block is alike where the bytes below its first store are. -/
theorem read_lengthBlock_congr {m n : Memory} {i : Nat} (len : BitVec 61) (hi : i ≤ 56)
    (hmn : ∀ a, a < i → m.read a = n.read a) (a : Nat) (ha : a < 64) :
    (lengthBlock m i len).read a = (lengthBlock n i len).read a := by
  rw [read_lengthBlock m i len a hi ha, read_lengthBlock n i len a hi ha]
  split
  · exact hmn a ‹_›
  · rfl

section
variable {s t : State} (h : SameButScratch s t)
include h

theorem followsButScratch_unlessError {f g : State → Result} (hfg : FollowsButScratch (f s) (g t)) :
    FollowsButScratch (unlessError s f) (unlessError t g) := by
  by_cases hp : s.PHASE = .error
  · rw [unlessError_of_error hp, unlessError_of_error (h.PHASE ▸ hp)]
    exact followsButScratch_next (sameButScratch_respond h 0)
  · rw [unlessError_of_ne hp, unlessError_of_ne (h.PHASE ▸ hp)]
    exact hfg

theorem followsButScratch_illegalCommand : FollowsButScratch (illegalCommand s) (illegalCommand t) :=
  followsButScratch_unlessError h (followsButScratch_next (sameButScratch_raiseErr h .cmd))

/-- The gate of a command of one phase, which `inReady` and `inDone` are for READY and DONE. -/
theorem followsButScratch_gate (p : Phase) {f : State → Result} (hf : FollowsButScratch (f s) (f t)) :
    FollowsButScratch (unlessError s fun s => if s.PHASE = p then f s else .next (raiseErr .seq s))
      (unlessError t fun s => if s.PHASE = p then f s else .next (raiseErr .seq s)) := by
  refine followsButScratch_unlessError h ?_
  rw [h.PHASE]
  split
  · exact hf
  · exact followsButScratch_next (sameButScratch_raiseErr h .seq)

theorem followsButScratch_inReady {f : State → Result} (hf : FollowsButScratch (f s) (f t)) :
    FollowsButScratch (inReady s f) (inReady t f) := followsButScratch_gate h .ready hf

theorem followsButScratch_inDone {f : State → Result} (hf : FollowsButScratch (f s) (f t)) :
    FollowsButScratch (inDone s f) (inDone t f) := followsButScratch_gate h .done hf

theorem followsButScratch_compressBuf (hb : ∀ a, a < 64 → s.BUF.read a = t.BUF.read a) :
    FollowsButScratch (compressBuf s) (compressBuf t) := by
  intro s' hs
  obtain ⟨hw, rfl⟩ := compressBuf_cases hs
  exact ⟨_, compressBuf_next (firstUnwritten_congr hb ▸ hw), sameButScratch_compressed h hb⟩

/-- The byte stored at `FILL` is alike too, so the two buffers are alike one byte further. -/
theorem read_write_fill_congr (b : Byte) (a : Nat) (ha : a ≤ s.FILL.toNat) :
    (s.BUF.write s.FILL.toNat b).read a = (t.BUF.write t.FILL.toNat b).read a := by
  rw [← h.FILL, read_write, read_write]
  split
  · rfl
  · exact h.bytes a (by omega)

theorem followsButScratch_appendByte (b : Byte) :
    FollowsButScratch (appendByte b s) (appendByte b t) := by
  have hread := read_write_fill_congr h b
  have hlen : s.LEN + 1 = t.LEN + 1 := by rw [h.LEN]
  unfold appendByte
  by_cases h63 : s.FILL.toNat + 1 = 64
  · rw [if_pos h63, if_pos (h.FILL ▸ h63)]
    have hsame : SameButScratch { s with BUF := s.BUF.write s.FILL.toNat b, LEN := s.LEN + 1 }
        { t with BUF := t.BUF.write t.FILL.toNat b, LEN := t.LEN + 1 } :=
      { h with LEN := hlen, bytes := fun a ha => hread a (Nat.le_of_lt ha) }
    exact followsButScratch_compressBuf hsame fun a ha => hread a (by omega)
  · rw [if_neg h63, if_neg (h.FILL ▸ h63)]
    have hle : (s.FILL + 1).toNat ≤ s.FILL.toNat + 1 := by
      rw [BitVec.toNat_add]
      exact Nat.mod_le _ _
    exact followsButScratch_next { h with
      FILL := by rw [h.FILL]
      LEN := hlen
      bytes := fun a ha => hread a (Nat.le_of_lt_succ (ha.trans_le hle)) }

/-- FINAL's first of two blocks is alike: it keeps the bytes below `FILL` and stores all others. -/
theorem read_markedBlock_congr (a : Nat) (ha : a < 64) :
    (markedBlock s.BUF s.FILL.toNat).read a = (markedBlock t.BUF t.FILL.toNat).read a := by
  rw [← h.FILL, read_markedBlock _ _ _ s.FILL.isLt ha, read_markedBlock _ _ _ s.FILL.isLt ha]
  split
  · exact h.bytes a ‹_›
  · rfl

theorem followsButScratch_compressBuf_withBuf {m n : Memory} (hmn : ∀ a, a < 64 → m.read a = n.read a) :
    FollowsButScratch (compressBuf (withBuf m s)) (compressBuf (withBuf n t)) :=
  followsButScratch_compressBuf (sameButScratch_withBuf h hmn) hmn

theorem followsButScratch_padAndCompress :
    FollowsButScratch (padAndCompress s) (padAndCompress t) := by
  unfold padAndCompress
  by_cases h56 : 56 < s.FILL.toNat + 1
  · rw [if_pos h56, if_pos (h.FILL ▸ h56)]
    refine followsButScratch_andThen
      (followsButScratch_compressBuf_withBuf h (read_markedBlock_congr h)) fun u v huv => ?_
    rw [← huv.LEN]
    exact followsButScratch_compressBuf_withBuf huv
      (read_lengthBlock_congr u.LEN (Nat.zero_le 56) fun a ha => absurd ha (Nat.not_lt_zero a))
  · rw [if_neg h56, if_neg (h.FILL ▸ h56)]
    refine followsButScratch_compressBuf_withBuf h ?_
    have hread := read_write_fill_congr h 0x80
    rw [← h.FILL] at hread ⊢
    rw [← h.LEN]
    exact read_lengthBlock_congr s.LEN (by omega) fun a ha => hread a (Nat.le_of_lt_succ ha)

/-! ### Commands, steps and runs that go on alike -/

theorem followsButScratch_execData (b : Byte) : FollowsButScratch (execData b s) (execData b t) := by
  refine followsButScratch_inReady h ?_
  rw [h.LEN]
  split
  · exact followsButScratch_next (sameButScratch_raiseErr h .len)
  · exact followsButScratch_andThen (followsButScratch_appendByte h b) fun u v huv =>
      followsButScratch_next (sameButScratch_respond huv 0)

theorem followsButScratch_execFinal : FollowsButScratch (execFinal s) (execFinal t) :=
  followsButScratch_inReady h <|
    followsButScratch_andThen (followsButScratch_padAndCompress h) fun _ _ huv =>
      followsButScratch_next (sameButScratch_respond (sameButScratch_phase huv .done) 0)

theorem followsButScratch_execEndraw : FollowsButScratch (execEndraw s) (execEndraw t) := by
  refine followsButScratch_inReady h ?_
  by_cases hf : s.FILL ≠ 0
  · rw [if_pos hf, if_pos (h.FILL ▸ hf)]
    exact followsButScratch_next (sameButScratch_raiseErr h .align)
  · rw [if_neg hf, if_neg (h.FILL ▸ hf)]
    exact followsButScratch_next (sameButScratch_respond (sameButScratch_phase h .done) 0)

/-- A command of phase DONE that reads a value which is alike in both states. -/
theorem followsButScratch_read {val : State → Word} (hv : val s = val t) :
    FollowsButScratch (inDone s fun s => .next (respond (val s) s))
      (inDone t fun s => .next (respond (val s) s)) := by
  refine followsButScratch_inDone h ?_
  rw [hv]
  exact followsButScratch_next (sameButScratch_respond h _)

theorem followsButScratch_execRdsr (n : BitVec 3) :
    FollowsButScratch (execRdsr n s) (execRdsr n t) := by
  unfold execRdsr
  rw [statusReg_congr h n]
  split
  · exact followsButScratch_next (sameButScratch_respond h _)
  · exact followsButScratch_illegalCommand h

theorem followsButScratch_exec (i : Instr) : FollowsButScratch (exec i s) (exec i t) := by
  cases i with
  | nop => exact followsButScratch_next (sameButScratch_respond h 0)
  | init => exact followsButScratch_next (sameButScratch_initialise h.inputs)
  | data b => exact followsButScratch_execData h b
  | final => exact followsButScratch_execFinal h
  | endraw => exact followsButScratch_execEndraw h
  | rdw i => exact followsButScratch_read h (val := fun s => s.word i) (by simp only [State.word, h.H])
  | rdb i =>
    exact followsButScratch_read h (val := fun s => s.digestByte i) (by simp only [State.digestByte, h.H])
  | rdx i =>
    exact followsButScratch_read h (val := fun s => s.digestChar i) (by simp only [State.digestChar, h.H])
  | rdsr n => exact followsButScratch_execRdsr h n

theorem followsButScratch_executeWord (w : Cmd) :
    FollowsButScratch (executeWord w s) (executeWord w t) := by
  unfold executeWord
  split
  · exact followsButScratch_exec h _
  · exact followsButScratch_illegalCommand h

/-- No step from rest observes scratch (R38): the two sequencers make no micro-step, and every event acts
on the two states alike. -/
theorem followsButScratch_step (hs : s.SEQ.stage = .idle) : FollowsButScratch (step s) (step t) := by
  have ht : t.SEQ.stage = .idle := h.SEQ ▸ hs
  have hi := h.inputs.symm
  cases he : s.inputs with
  | nil =>
    rw [step_of_nothing he hs, step_of_nothing (hi.trans he) ht]
    exact followsButScratch_next h
  | cons e rest =>
    have hsame := sameButScratch_inputs h rest
    cases e with
    | reset =>
      rw [step_of_reset he, step_of_reset (hi.trans he)]
      exact followsButScratch_next (sameButScratch_hardwareReset hsame.inputs)
    | command w =>
      rw [step_of_command he hs, step_of_command (hi.trans he) ht]
      exact followsButScratch_executeWord hsame w

end

/-- Two runs of the same length from states at rest that differ in scratch only go on alike. -/
theorem followsButScratch_run (k : Nat) {s t : State} (h : SameButScratch s t)
    (hs : s.SEQ.stage = .idle) : FollowsButScratch (core.run k s) (core.run k t) := by
  induction k generalizing s t with
  | zero => exact followsButScratch_next h
  | succ k ih =>
    intro s' hrun
    obtain ⟨u, hu, hrun⟩ := run_cases hrun
    obtain ⟨v, hv, huv⟩ := followsButScratch_step h hs u hu
    rw [run_of_step hv]
    exact ih huv (step_idle hs hu) s' hrun

/-- The step that takes an INIT. -/
theorem step_of_init {s : State} {rest : List HostEvent} (h : s.inputs = .command 0x1000 :: rest)
    (hs : s.SEQ.stage = .idle) :
    step s = .next (respond 0 (initialise { s with inputs := rest })) :=
  step_of_command h hs

/-- Settles O60: INIT makes the two states alike but for scratch, and no later step observes scratch. -/
theorem initErasesThePast : Obligations.InitErasesThePast := by
  intro n s t s' rest hs ht his hit hrun
  rw [run_of_step (step_of_init his hs)] at hrun
  have hsame := sameButScratch_initialise (s := { s with inputs := rest })
    (t := { t with inputs := rest }) rfl
  obtain ⟨t', ht', hst⟩ := followsButScratch_run n hsame rfl s' hrun
  exact ⟨t', (run_of_step (step_of_init hit ht)).trans ht', hst, hst.resp⟩

end Sys2Proof.Proofs
end

section
/-! SUPPORT. The status registers as numbers (10_state.md R33 to R35), the registers a new invocation starts
with (R39), and what a command does to `LEN`. -/

namespace Sys2Proof.Proofs

open Sys2Proof Sys2Proof.Machine Sys2Proof.Laws

/-! ### The status registers as numbers -/

/-- Concatenation as arithmetic. -/
theorem toNat_append_add {m n : Nat} (x : BitVec m) (y : BitVec n) :
    (x ++ y).toNat = x.toNat * 2 ^ n + y.toNat := by
  rw [BitVec.toNat_append, ← Nat.shiftLeft_add_eq_or_of_lt y.isLt, Nat.shiftLeft_eq]

/-- The bits of a word from the size of its value up are 0. -/
theorem extractLsb'_eq_zero {v : Word} {i n : Nat} (h : v.toNat < 2 ^ i) : v.extractLsb' i n = 0 := by
  apply BitVec.eq_of_toNat_eq
  simp [Nat.shiftRight_eq_div_pow, Nat.div_eq_of_lt h]

/-- `SR0` as a number: each field at its place, nothing between them (R33). -/
theorem sr0_toNat (s : State) :
    s.sr0.toNat = s.PHASE.code.toNat + 16 * s.ERR.code.toNat + 256 * s.FILL.toNat := by
  have hp := s.PHASE.code.isLt
  have he := s.ERR.code.isLt
  simp only [State.sr0, toNat_append_add, BitVec.toNat_zero, BitVec.ofNat_eq_ofNat]
  omega

/-- A field of `SR0` is a slice of the number `sr0_toNat` gives. -/
theorem sr0_extract {s : State} {i n : Nat} {x : BitVec n}
    (h : (s.PHASE.code.toNat + 16 * s.ERR.code.toNat + 256 * s.FILL.toNat) / 2 ^ i % 2 ^ n = x.toNat) :
    s.sr0.extractLsb' i n = x := by
  apply BitVec.eq_of_toNat_eq
  rw [BitVec.extractLsb'_toNat, sr0_toNat, Nat.shiftRight_eq_div_pow, h]

theorem sr1_toNat (s : State) : s.sr1.toNat = s.LEN.toNat % 2 ^ 32 := by
  simp [State.sr1, BitVec.extractLsb'_toNat]

theorem sr2_toNat (s : State) : s.sr2.toNat = s.LEN.toNat / 2 ^ 32 := by
  have hl := s.LEN.isLt
  rw [State.sr2, BitVec.toNat_setWidth, BitVec.extractLsb'_toNat, Nat.shiftRight_eq_div_pow]
  omega

theorem sr3_toNat (s : State) : s.sr3.toNat = s.BLKCNT.toNat % 2 ^ 32 := by
  simp [State.sr3, BitVec.extractLsb'_toNat]

theorem sr4_toNat (s : State) : s.sr4.toNat = s.BLKCNT.toNat / 2 ^ 32 := by
  have hl := s.BLKCNT.isLt
  rw [State.sr4, BitVec.toNat_setWidth, BitVec.extractLsb'_toNat, Nat.shiftRight_eq_div_pow]
  omega

theorem statusReg_eq_none_iff (s : State) (n : BitVec 3) : s.statusReg n = none ↔ 5 ≤ n.toNat := by
  refine ⟨fun h => ?_, statusReg_eq_none⟩
  by_contra hn
  obtain ⟨v, hv⟩ := statusReg_isSome (s := s) (n := n) (by omega)
  simp [h] at hv

/-- The words that ask for a register above `SR4` are illegal (R33, R84). -/
theorem legal_reserved_statusReg {w : Cmd} (hlo : 0x8005 ≤ w.toNat) (hhi : w.toNat ≤ 0x80ff) :
    legal w = false := by
  have hop : w.toNat / 4096 = 8 := by omega
  have himm : ¬ w.toNat % 256 ≤ 4 := by omega
  simp [legal, opField_toNat, immField_toNat, hop, himm]

/-! ### The registers a new invocation starts with -/

/-- The registers have the values of R39, which reset and INIT both put there. -/
structure FreshRegisters (t : State) : Prop where
  H : t.H = IV
  FILL : t.FILL = 0
  LEN : t.LEN = 0
  BLKCNT : t.BLKCNT = 0
  PHASE : t.PHASE = .ready
  ERR : t.ERR = .none
  SEQ : t.SEQ = Sequencer.home

theorem freshRegisters_reset : FreshRegisters State.reset := ⟨rfl, rfl, rfl, rfl, rfl, rfl, rfl⟩

theorem freshRegisters_hardwareReset (s : State) : FreshRegisters (hardwareReset s) :=
  ⟨rfl, rfl, rfl, rfl, rfl, rfl, rfl⟩

theorem freshRegisters_init {s t : State} (h : exec .init s = .next t) : FreshRegisters t := by
  cases h
  exact ⟨rfl, rfl, rfl, rfl, rfl, rfl, rfl⟩

theorem FreshRegisters.doneOut {t : State} (h : FreshRegisters t) : t.doneOut = false := by
  simp [State.doneOut, h.PHASE]

theorem FreshRegisters.errOut {t : State} (h : FreshRegisters t) : t.errOut = false := by
  simp [State.errOut, h.PHASE]

/-- All five status registers read 0 then. -/
theorem FreshRegisters.statusReg {t : State} (h : FreshRegisters t) {n : BitVec 3} (hn : n.toNat ≤ 4) :
    t.statusReg n = some 0 := by
  have h0 : t.sr0 = 0 := by simp [State.sr0, h.PHASE, h.ERR, h.FILL, Phase.code, ErrCode.code]
  have h1 : t.sr1 = 0 := by simp [State.sr1, h.LEN]
  have h2 : t.sr2 = 0 := by simp [State.sr2, h.LEN]
  have h3 : t.sr3 = 0 := by simp [State.sr3, h.BLKCNT]
  have h4 : t.sr4 = 0 := by simp [State.sr4, h.BLKCNT]
  unfold State.statusReg
  interval_cases n.toNat <;> simp only [h0, h1, h2, h3, h4]

/-! ### What a command does to `LEN` -/

theorem decode_init_word {w : Cmd} (h : decode w = .ok .init) : w = 0x1000 := by
  obtain ⟨hrsv, h⟩ := decode_cases h
  simp only [reduceCtorEq, and_false, false_or, or_false, and_true] at h
  obtain ⟨hop, himm⟩ := h
  rw [← packFields_fields w, hrsv, hop, himm]
  rfl

/-- A command keeps `LEN`, clears it as INIT does, or counts one byte as DATA below the limit does. -/
theorem executeWord_LEN {w : Cmd} {s t : State} (h : executeWord w s = .next t) :
    t.LEN = s.LEN ∨ (decode w = .ok .init ∧ t.LEN = 0) ∨
      ((∃ b, decode w = .ok (.data b)) ∧ s.LEN.toNat ≠ Config.maxLen ∧ t.LEN = s.LEN + 1 ∧
        t.PHASE = .ready) := by
  cases executed h with
  | init hd => exact .inr (.inl ⟨hd, rfl⟩)
  | data hp b hd hl u hu =>
    obtain ⟨hphase, -, -, -, -, -, hlen⟩ := appendByte_fields hu
    exact .inr (.inr ⟨⟨b, hd⟩, hl, hlen, hphase.trans hp⟩)
  | final _ _ u hu =>
    obtain ⟨-, -, -, -, -, -, hlen⟩ := padAndCompress_fields hu
    exact .inl hlen
  | _ => exact .inl rfl

/-! ### The obligations on the status registers and on reset -/

/-- Settles O20: the fields are slices of the number `sr0_toNat`. -/
theorem statusWordHoldsPhaseErrAndFill : Obligations.StatusWordHoldsPhaseErrAndFill := by
  refine ⟨fun s => ⟨s.sr0, rfl, sr0_toNat s, ?_⟩, statusReg_eq_none_iff,
    fun w => legal_reserved_statusReg, freshRegisters_reset.statusReg (by decide)⟩
  have hp := s.PHASE.code.isLt
  have he := s.ERR.code.isLt
  have hf := s.FILL.isLt
  have hzero : ∀ n, (0 : BitVec n).toNat = 0 := fun _ => BitVec.toNat_zero
  exact ⟨sr0_extract (by omega), sr0_extract (by rw [hzero]; omega), sr0_extract (by omega),
    sr0_extract (by rw [hzero]; omega), sr0_extract (by omega),
    extractLsb'_eq_zero (by rw [sr0_toNat]; omega)⟩

/-- Settles O21: the halves as numbers, and `LEN` by the cases of `executeWord_LEN`. -/
theorem counterRegistersHoldLenAndBlkcnt : Obligations.CounterRegistersHoldLenAndBlkcnt := by
  refine ⟨fun s => ⟨s.sr1, s.sr2, rfl, rfl, sr1_toNat s, sr2_toNat s, ?_⟩,
    fun s => ⟨s.sr3, s.sr4, rfl, rfl, sr3_toNat s, sr4_toNat s, ?_⟩,
    fun n _ => freshRegisters_reset.statusReg, fun w s t h hne => ?_⟩
  · have hlen := s.LEN.isLt
    exact extractLsb'_eq_zero (by rw [sr2_toNat]; omega)
  · have hblk := s.BLKCNT.isLt
    exact extractLsb'_eq_zero (by rw [sr4_toNat]; omega)
  · rcases executeWord_LEN h with hlen | ⟨hd, -⟩ | ⟨hd, -⟩
    · exact absurd hlen hne
    · exact .inl (decode_init_word hd)
    · exact .inr hd

/-- Settles O24: each of the three leaves fresh registers, and INIT touches no scratch. -/
theorem resetAndInitPutTheSameValues : Obligations.ResetAndInitPutTheSameValues := by
  refine ⟨fun s t h => ?_, fun s t h => ?_⟩
  · have hfresh : FreshRegisters t := by
      rcases h with rfl | rfl | h
      · exact freshRegisters_reset
      · exact freshRegisters_hardwareReset s
      · exact freshRegisters_init h
    exact ⟨hfresh.H, hfresh.FILL, hfresh.LEN, hfresh.BLKCNT, hfresh.PHASE, hfresh.ERR, hfresh.SEQ,
      hfresh.doneOut, hfresh.errOut, fun n => hfresh.statusReg⟩
  · cases h
    exact ⟨rfl, rfl, rfl⟩

end Sys2Proof.Proofs
end

section
/-! SUPPORT. The legal words and the responses (30_encoding.md R81, R84): each operation code admits the
operands below a bound of its own, which counts the legal words; and what each outcome of a word answers. -/

namespace Sys2Proof.Proofs

open Sys2Proof Sys2Proof.Machine Sys2Proof.Laws

/-! ### The operands an operation code admits -/

/-- How many operands operation code `op` admits, from operand 0 up (R84); none for a reserved code. -/
def operandCount (op : Nat) : Nat := [1, 1, 256, 1, 1, 8, 32, 64, 5].getD op 0

theorem operandCount_of_reserved {op : Nat} (h : 9 ≤ op) : operandCount op = 0 :=
  List.getD_eq_default _ _ h

theorem operandCount_le (op : Nat) : operandCount op ≤ 256 := by
  by_cases h : 9 ≤ op
  · rw [operandCount_of_reserved h]
    exact Nat.zero_le 256
  · interval_cases op <;> decide

theorem ite_isOk_iff {ε α : Type} {p : Prop} [Decidable p] {a : α} {e : ε} :
    (∃ i, (if p then Except.ok a else Except.error e) = Except.ok i) ↔ p := by
  split <;> simp [*]

/-- The decoder takes exactly the first `operandCount` operands of an operation code. -/
theorem decodeOp_isOk_iff (op : Nat) (imm : Byte) :
    (∃ i, decodeOp op imm = .ok i) ↔ imm.toNat < operandCount op := by
  have hzero : imm = 0 ↔ imm.toNat < 1 := BitVec.toNat_eq.trans Nat.lt_one_iff.symm
  match op with
  | 0 | 1 | 3 | 4 => exact ite_isOk_iff.trans hzero
  | 2 => exact iff_of_true ⟨_, rfl⟩ imm.isLt
  | 5 | 6 | 7 | 8 => exact ite_isOk_iff.trans Nat.lt_succ_iff.symm
  | op + 9 =>
    rw [operandCount_of_reserved (Nat.le_add_left 9 op)]
    exact iff_of_false (by simp [decodeOp]) (Nat.not_lt_zero _)

/-- A word decodes iff the twelve bits below its operation code number one of the code's operands; the
bound is at most 256, so the reserved bits are then 0. -/
theorem decode_isOk_iff (w : Cmd) :
    (∃ i, decode w = .ok i) ↔ w.toNat % 4096 < operandCount (w.toNat / 4096) := by
  have hle := operandCount_le (w.toNat / 4096)
  have hrsv : rsvField w = 0 ↔ w.toNat / 256 % 16 = 0 := by
    simp [BitVec.toNat_eq, rsvField_toNat]
  unfold decode
  rw [opField_toNat]
  split
  · rename_i hop
    rw [operandCount_of_reserved hop]
    exact iff_of_false (by simp) (Nat.not_lt_zero _)
  · split
    · rename_i hbits
      have hbits := mt hrsv.2 hbits
      exact iff_of_false (by simp) (by omega)
    · rename_i hbits
      have hbits := hrsv.1 (not_not.1 hbits)
      rw [decodeOp_isOk_iff, immField_toNat]
      omega

/-- The legality predicate says the same of a word. -/
theorem legal_iff (w : Cmd) : legal w = true ↔ w.toNat % 4096 < operandCount (w.toNat / 4096) := by
  simp only [legal, opField_toNat, rsvField_toNat, immField_toNat, Bool.and_eq_true, Bool.or_eq_true,
    beq_iff_eq, decide_eq_true_eq]
  by_cases h : 9 ≤ w.toNat / 4096
  · rw [operandCount_of_reserved h]
    omega
  · generalize hop : w.toNat / 4096 = op at h ⊢
    interval_cases op <;> simp [operandCount] <;> omega

/-! ### Counting the legal words -/

theorem count_lt_of_le {c n : Nat} (h : c ≤ n) : Nat.count (· < c) n = c := by
  obtain ⟨d, rfl⟩ := Nat.exists_eq_add_of_le h
  rw [Nat.count_add, Nat.count_of_forall fun _ hk => hk, Nat.count_of_forall_not (by omega), Nat.add_zero]

/-- Counting row by row, `b` numbers a row: the first `c r` numbers of row `r` count. -/
theorem count_rows {b : Nat} {c : Nat → Nat} (hc : ∀ r, c r ≤ b) (m : Nat) :
    Nat.count (fun n => n % b < c (n / b)) (b * m) = ((List.range m).map c).sum := by
  induction m with
  | zero => simp
  | succ m ih =>
    have hrow : Nat.count (fun k => (b * m + k) % b < c ((b * m + k) / b)) b = c m :=
      calc Nat.count (fun k => (b * m + k) % b < c ((b * m + k) / b)) b
          = Nat.count (· < c m) b := List.countP_congr fun k hk => by
            have hk := List.mem_range.1 hk
            simp [Nat.mod_eq_of_lt hk, Nat.mul_add_div (Nat.zero_lt_of_lt hk),
              Nat.div_eq_of_lt hk]
        _ = c m := count_lt_of_le (hc m)
    rw [Nat.mul_succ, Nat.count_add, ih, hrow, List.range_succ]
    simp

theorem count_legal_words : (List.range 65536).countP (fun n => legal (BitVec.ofNat 16 n)) = 369 :=
  calc (List.range 65536).countP (fun n => legal (BitVec.ofNat 16 n))
      = Nat.count (fun n => n % 4096 < operandCount (n / 4096)) (4096 * 16) :=
        List.countP_congr fun n hn => by
          rw [legal_iff, BitVec.toNat_ofNat, Nat.mod_eq_of_lt (List.mem_range.1 hn), decide_eq_true_iff]
    _ = ((List.range 16).map operandCount).sum :=
        count_rows (fun op => (operandCount_le op).trans (by omega)) 16
    _ = 369 := by decide

/-! ### The obligations on legality and on responses -/

/-- Settles O3: the decoder and both forms of the predicate bound the operand by `operandCount`. -/
theorem legalWordsAreThoseThatDecode : Obligations.LegalWordsAreThoseThatDecode := by
  have hlegal (w : Cmd) : legal w = true ↔ ∃ i, decode w = .ok i :=
    (legal_iff w).trans (decode_isOk_iff w).symm
  refine ⟨fun w => ?_, hlegal, count_legal_words⟩
  rw [← hlegal]
  simp [legal, opField_toNat, rsvField_toNat, immField_toNat, or_assoc]

/-- Settles O8: each outcome of `Executed` shows the response it leaves. -/
theorem everyCommandAnswersTheValueReadOrZero : Obligations.EveryCommandAnswersTheValueReadOrZero := by
  intro w s t h
  cases executed h with
  | ignored hp _ hnot =>
    refine ⟨0, rfl, ?_⟩
    split
    case h_4 n hd => exact absurd hd (hnot n)
    all_goals simp [hp]
  | rdw hp k hd | rdb hp k hd | rdx hp k hd =>
    exact ⟨_, rfl, by rw [hd]; exact (if_pos hp).symm⟩
  | rdsr n v hd hv => exact ⟨v, rfl, by simp [hd, hv]⟩
  | seqReady hp hd =>
    rcases hd with ⟨k, hd⟩ | ⟨k, hd⟩ | ⟨k, hd⟩ <;> exact ⟨0, rfl, by simp [hd, hp]⟩
  | seqDone hp hd =>
    rcases hd with ⟨b, hd⟩ | hd | hd <;> exact ⟨0, rfl, by simp [hd]⟩
  | nop hd | init hd | illegal _ _ hd | len _ _ hd | data _ _ hd | final _ hd | align _ hd
  | endraw _ hd => exact ⟨0, rfl, by simp [hd]⟩

end Sys2Proof.Proofs
end

section
/-! SUPPORT. The word operators (40_operators.md R111 to R114, R119, R120): each one as arithmetic or bit by
bit, and words compared by their bits. -/

namespace Sys2Proof.Proofs

open Sys2Proof Sys2Proof.Machine Sys2Proof.Laws

/-! ### The operators as arithmetic -/

theorem toNat_add32 (x y : Word) : (add32 x y).toNat = (x.toNat + y.toNat) % 2 ^ 32 :=
  BitVec.toNat_add x y

theorem toNat_shr (x : Word) (n : Nat) : (shr x n).toNat = x.toNat / 2 ^ n := by
  rw [shr, BitVec.toNat_ushiftRight, Nat.shiftRight_eq_div_pow]

theorem toNat_shl (x : Word) (n : Nat) : (shl x n).toNat = x.toNat * 2 ^ n % 2 ^ 32 := by
  rw [shl, BitVec.toNat_shiftLeft, Nat.shiftLeft_eq]

/-! ### The operators bit by bit -/

@[simp] theorem getLsbD_and32 (x y : Word) (i : Nat) :
    (and32 x y).getLsbD i = (x.getLsbD i && y.getLsbD i) := BitVec.getLsbD_and

@[simp] theorem getLsbD_or32 (x y : Word) (i : Nat) :
    (or32 x y).getLsbD i = (x.getLsbD i || y.getLsbD i) := BitVec.getLsbD_or

@[simp] theorem getLsbD_xor32 (x y : Word) (i : Nat) :
    (xor32 x y).getLsbD i = (x.getLsbD i ^^ y.getLsbD i) := BitVec.getLsbD_xor

@[simp] theorem getLsbD_not32 (x : Word) {i : Nat} (hi : i < 32) :
    (not32 x).getLsbD i = !x.getLsbD i := by
  simp [not32, hi]

theorem getLsbD_allOnes_word {i : Nat} (hi : i < 32) : (0xffffffff : Word).getLsbD i = true := by
  change (BitVec.allOnes 32).getLsbD i = true
  rw [BitVec.getLsbD_allOnes, decide_eq_true hi]

theorem getLsbD_zero_word (i : Nat) : (0 : Word).getLsbD i = false := BitVec.getLsbD_zero

/-- In its range `rotr` is the library's rotation, the or of the two shifts (R114). -/
theorem rotr_eq_rotateRight (x : Word) {n : Nat} (hn : n < 32) : rotr x n = x.rotateRight n := by
  rw [BitVec.rotateRight_def, Nat.mod_eq_of_lt hn]
  rfl

/-- Bit `i` comes from bit `i + n`, which wraps to `i - (32 - n)` above the top. -/
theorem getLsbD_rotr (x : Word) {n i : Nat} (hn : n < 32) (hi : i < 32) :
    (rotr x n).getLsbD i = x.getLsbD ((i + n) % 32) := by
  rw [rotr_eq_rotateRight x hn, BitVec.getLsbD_rotateRight, Nat.mod_eq_of_lt hn]
  by_cases hwrap : i < 32 - n
  · have hsrc : (i + n) % 32 = n + i := by omega
    simp [hwrap, hsrc]
  · have hsrc : (i + n) % 32 = i - (32 - n) := by omega
    simp [hwrap, hsrc, hi]

/-- A word whose bits are all alike is fixed: each bit of the result is one of them. -/
theorem rotr_eq_self {x : Word} {b : Bool} (h : ∀ i < 32, x.getLsbD i = b) {n : Nat} (hn : n < 32) :
    rotr x n = x := by
  refine BitVec.eq_of_getLsbD_eq fun i hi => ?_
  rw [getLsbD_rotr x hn hi, h i hi, h _ (Nat.mod_lt _ (by decide))]

theorem rotr_zero (x : Word) : rotr x 0 = x := by
  refine BitVec.eq_of_getLsbD_eq fun i hi => ?_
  rw [getLsbD_rotr x (by decide) hi, Nat.add_zero, Nat.mod_eq_of_lt hi]

/-- By the whole width the right shift leaves nothing and the left one everything. -/
theorem rotr_width (x : Word) : rotr x 32 = x := by
  have hshr : shr x 32 = 0 := BitVec.ushiftRight_eq_zero (Nat.le_refl 32)
  have hshl : shl x 0 = x := BitVec.shiftLeft_zero x
  rw [rotr, hshr, hshl]
  exact BitVec.zero_or

theorem getLsbD_ch (x y z : Word) {i : Nat} (hi : i < 32) :
    (ch x y z).getLsbD i = if x.getLsbD i then y.getLsbD i else z.getLsbD i := by
  rw [ch, getLsbD_xor32, getLsbD_and32, getLsbD_and32, getLsbD_not32 x hi]
  cases x.getLsbD i <;> simp

theorem getLsbD_maj (x y z : Word) (i : Nat) :
    (maj x y z).getLsbD i = Bool.atLeastTwo (x.getLsbD i) (y.getLsbD i) (z.getLsbD i) := by
  rw [maj, getLsbD_xor32, getLsbD_xor32, getLsbD_and32, getLsbD_and32, getLsbD_and32]
  generalize x.getLsbD i = a, y.getLsbD i = b, z.getLsbD i = c
  revert a b c
  decide

theorem getLsbD_maj_iff (x y z : Word) (i : Nat) : (maj x y z).getLsbD i = true ↔
    2 ≤ (x.getLsbD i).toNat + (y.getLsbD i).toNat + (z.getLsbD i).toNat := by
  rw [getLsbD_maj]
  generalize x.getLsbD i = a, y.getLsbD i = b, z.getLsbD i = c
  revert a b c
  decide

/-! ### The obligations on the operators -/

/-- Settles O38: the sum of bit vectors, and the shifts as a quotient and a product. -/
theorem addAndShiftsAreArithmetic : Obligations.AddAndShiftsAreArithmetic :=
  ⟨toNat_add32, BitVec.add_comm, BitVec.add_assoc, BitVec.add_zero,
    fun x n => ⟨toNat_shr x n, toNat_shl x n⟩⟩

/-- Settles O39: the bits are those of `getLsbD_rotr`, the or of the shifts is the definition, and the two
words have all bits alike. -/
theorem rotrMovesEveryBit : Obligations.RotrMovesEveryBit :=
  ⟨fun x _ _ _ hn hi => getLsbD_rotr x (Nat.lt_succ_of_le hn) hi,
    fun _ _ _ _ => rfl,
    fun _ _ hn =>
      ⟨rotr_eq_self (fun _ => getLsbD_allOnes_word) (Nat.lt_succ_of_le hn),
        rotr_eq_self (fun i _ => getLsbD_zero_word i) (Nat.lt_succ_of_le hn)⟩,
    fun x => ⟨rotr_zero x, rotr_width x⟩⟩

/-- Settles O41: each equation of words holds bit by bit, by the choice a bit of `Ch` makes or the count a
bit of `Maj` takes. -/
theorem chChoosesAndMajCounts : Obligations.ChChoosesAndMajCounts := by
  refine ⟨fun x y z i hi => ⟨getLsbD_ch x y z hi, getLsbD_maj_iff x y z i⟩, fun x y z => ?or,
    fun y z => ⟨?chOnes, ?chZero⟩, fun x y => ?chSame, fun x y z => ⟨?swapXY, ?swapYZ⟩, fun x z => ?majSame,
    fun y z => ⟨?majZero, ?majOnes⟩⟩ <;>
    refine BitVec.eq_of_getLsbD_eq fun i hi => ?_
  case or =>
    rw [getLsbD_ch x y z hi, getLsbD_or32, getLsbD_and32, getLsbD_and32, getLsbD_not32 x hi]
    cases x.getLsbD i <;> simp
  case chOnes => rw [getLsbD_ch _ y z hi, getLsbD_allOnes_word hi, if_pos rfl]
  case chZero => rw [getLsbD_ch 0 y z hi, getLsbD_zero_word, if_neg Bool.false_ne_true]
  case chSame => rw [getLsbD_ch x y y hi, ite_self]
  case swapXY | swapYZ =>
    rw [Bool.eq_iff_iff, getLsbD_maj_iff, getLsbD_maj_iff]
    omega
  case majSame =>
    rw [getLsbD_maj]
    cases x.getLsbD i <;> simp
  case majZero => rw [getLsbD_maj, getLsbD_zero_word, Bool.atLeastTwo_false_left, getLsbD_and32]
  case majOnes => rw [getLsbD_maj, getLsbD_allOnes_word hi, Bool.atLeastTwo_true_left, getLsbD_or32]

end Sys2Proof.Proofs
end

section
/-! SUPPORT. The Padder (41_padder.md R140 to R145): the zero-fill count as the residue that closes a block,
the four parts of a padded message at their offsets, and its length in blocks. -/

namespace Sys2Proof.Proofs

open Sys2Proof Sys2Proof.Machine Sys2Proof.Laws

/-! ### The zero-fill count -/

theorem zeroFill_lt (L : Nat) : zeroFill L < 64 := by
  unfold zeroFill
  omega

/-- After the zeros eight bytes are missing to a whole block, the room of the length field (R142). -/
theorem zeroFill_aligns (L : Nat) : (L + 1 + zeroFill L) % 64 = 56 := by
  unfold zeroFill
  omega

/-- Counts that align differ by a multiple of 64, and `zeroFill` is the one below 64 (R141). -/
theorem aligns_iff (L k : Nat) : (L + 1 + k) % 64 = 56 ↔ k % 64 = zeroFill L := by
  have hlt := zeroFill_lt L
  have haligns := zeroFill_aligns L
  omega

theorem zeroFill_eq_iff_aligns (L : Nat) {k : Nat} (hk : k < 64) :
    zeroFill L = k ↔ (L + 1 + k) % 64 = 56 := by
  rw [aligns_iff, Nat.mod_eq_of_lt hk, eq_comm]

/-! ### The padded message at each offset -/

/-- Inside the domain of R145 `pad` answers, and only there. -/
theorem pad_eq_some_iff (m P : List Byte) : pad m = some P ↔ m.length ≤ 2 ^ 61 - 1 ∧ padBytes m = P := by
  rw [pad, Config.maxLen, Option.ite_none_right_eq_some, Option.some.injEq]

/-- The four parts, nested so that each one starts where those before it end. -/
theorem padBytes_eq_append (m : List Byte) : padBytes m =
    m ++ 0x80 :: (List.replicate (zeroFill m.length) 0 ++ be64 (BitVec.ofNat 64 (8 * m.length))) := by
  simp [padBytes]

theorem padBytes_getElem?_message {m : List Byte} {j : Nat} (hj : j < m.length) :
    (padBytes m)[j]? = m[j]? := by
  rw [padBytes_eq_append, List.getElem?_append_left hj]

theorem padBytes_getElem?_marker (m : List Byte) : (padBytes m)[m.length]? = some 0x80 := by
  rw [padBytes_eq_append, List.getElem?_append_right (Nat.le_refl _), Nat.sub_self, List.getElem?_cons_zero]

/-- Past the marker the offset counts from the first zero. -/
theorem padBytes_getElem?_afterMarker (m : List Byte) (i : Nat) : (padBytes m)[m.length + 1 + i]? =
    (List.replicate (zeroFill m.length) 0 ++ be64 (BitVec.ofNat 64 (8 * m.length)))[i]? := by
  have hoffset : m.length + 1 + i - m.length = i + 1 := by omega
  rw [padBytes_eq_append, List.getElem?_append_right (by omega), hoffset, List.getElem?_cons_succ]

theorem padBytes_getElem?_zero {m : List Byte} {i : Nat} (hi : i < zeroFill m.length) :
    (padBytes m)[m.length + 1 + i]? = some 0 := by
  rw [padBytes_getElem?_afterMarker, List.getElem?_append_left (by simpa using hi),
    List.getElem?_replicate_of_lt hi]

/-- The bit length of a message in the domain fits the field, so nothing of it is cut off (R143). -/
theorem padBytes_getElem?_lengthField {m : List Byte} (hm : m.length ≤ 2 ^ 61 - 1) {j : Nat} (hj : j < 8) :
    (padBytes m)[m.length + 1 + (zeroFill m.length + j)]? =
      some (BitVec.ofNat 8 (8 * m.length / 2 ^ (56 - 8 * j))) := by
  have hfits : 8 * m.length < 2 ^ 64 := by omega
  rw [padBytes_getElem?_afterMarker, List.getElem?_append_right (by simp), List.length_replicate,
    Nat.add_sub_cancel_left, be64_getElem? _ j hj, BitVec.toNat_ofNat, Nat.mod_eq_of_lt hfits]

/-! ### The obligations on the Padder -/

/-- Settles O49: each range of offsets lies in one of the four parts. -/
theorem paddedMessageOffsetByOffset : Obligations.PaddedMessageOffsetByOffset := by
  intro m hm
  refine ⟨padBytes m, (pad_eq_some_iff m _).2 ⟨hm, rfl⟩, padBytes_length m,
    fun _ => padBytes_getElem?_message, padBytes_getElem?_marker m, fun j hlo hhi => ?zeros, fun j hj => ?field⟩
  case zeros =>
    obtain ⟨i, rfl⟩ := Nat.exists_eq_add_of_le hlo
    exact padBytes_getElem?_zero (by omega)
  case field =>
    have hoffset : (padBytes m).length - 8 + j = m.length + 1 + (zeroFill m.length + j) := by
      rw [padBytes_length, Nat.add_sub_cancel, Nat.add_assoc]
    rw [hoffset, padBytes_getElem?_lengthField hm hj]

/-- Settles O48: a count that aligns has `zeroFill L` as its residue, so it is no smaller; the two corner
cases are the alignment of 0 and of 63. -/
theorem zeroFillIsTheSmallest : Obligations.ZeroFillIsTheSmallest := by
  intro L
  refine ⟨zeroFill_aligns L, fun k hk => ?smallest, Nat.le_of_lt_succ (zeroFill_lt L), ?none, ?most⟩
  case smallest =>
    rw [← (aligns_iff L k).1 hk]
    exact Nat.mod_le k 64
  case none =>
    rw [zeroFill_eq_iff_aligns L (by decide)]
    omega
  case most =>
    rw [zeroFill_eq_iff_aligns L (by decide)]
    omega

/-- Settles O50: the zeros align the length field to the end of a block, and there are fewer than 64 of
them, which leaves one number of blocks. -/
theorem paddedLengthIsWholeBlocks : Obligations.PaddedLengthIsWholeBlocks := by
  intro m P hP
  obtain ⟨-, rfl⟩ := (pad_eq_some_iff m P).1 hP
  have hlt := zeroFill_lt m.length
  have haligns := zeroFill_aligns m.length
  rw [padBytes_length]
  refine ⟨rfl, ?_, ?_, ?_, ?_, fun _ => ?_, fun _ => ?_⟩ <;> omega

end Sys2Proof.Proofs
end

section
/-! SUPPORT. The Compressor (42_compressor.md R164 to R169): the words of a finished schedule, the working
variables after each round, and the state update word by word. -/

namespace Sys2Proof.Proofs

open Sys2Proof Sys2Proof.Machine Sys2Proof.Laws

/-! ### The schedule -/

theorem blockWord_toNat (B : Vector Byte 64) {i : Nat} (hi : i < 16) :
    (blockWord B (BitVec.ofNat 4 i)).toNat = B[4 * i].toNat * 2 ^ 24 + B[4 * i + 1].toNat * 2 ^ 16 +
      B[4 * i + 2].toNat * 2 ^ 8 + B[4 * i + 3].toNat := by
  have hindex : (BitVec.ofNat 4 i).toNat = i := Nat.mod_eq_of_lt hi
  simp only [blockWord, hindex, beWord_toNat]

/-- A word of the finished schedule already stands after any number of expansion steps that reaches it. -/
theorem schedule_getElem_of_lt (B : Vector Byte 64) {j n : Nat} (hj : j < 16 + n) (hn : n ≤ 48) :
    (schedule B)[j] =
      getW (expandFirst (loadAll B (Vector.replicate 64 0)) n) (BitVec.ofNat 6 j) := by
  rw [← getW_ofNat, schedule, expandAll_eq, getW_expandFirst _ n 48 j hn le_rfl hj]

theorem expandFirst_zero (W : Vector Word 64) : expandFirst W 0 = W := rfl

/-- A word below 16 is loaded before the first expansion step. -/
theorem schedule_getElem_loaded (B : Vector Byte 64) {i : Nat} (hi : i < 16) :
    (schedule B)[i] = blockWord B (BitVec.ofNat 4 i) := by
  rw [schedule_getElem_of_lt B (n := 0) hi (Nat.zero_le 48), expandFirst_zero, getW_loadAll _ _ _ (by omega),
    if_pos hi]

/-- The word an expansion step writes (R165), its indices counted down from `j` without wrapping. -/
theorem getW_expandStep_self (W : Vector Word 64) {j : Nat} (hlo : 16 ≤ j) :
    getW (expandStep W (BitVec.ofNat 6 j)) (BitVec.ofNat 6 j) =
      getW W (BitVec.ofNat 6 (j - 16)) + ssig0 (getW W (BitVec.ofNat 6 (j - 15))) +
        getW W (BitVec.ofNat 6 (j - 7)) + ssig1 (getW W (BitVec.ofNat 6 (j - 2))) := by
  rw [← ofNat6_sub j 16 hlo, ← ofNat6_sub j 15 (by omega), ← ofNat6_sub j 7 (by omega),
    ← ofNat6_sub j 2 (by omega), expandStep, getW_setW, if_pos rfl]
  rfl

/-- The step that writes a word finds the four words it reads as the finished schedule holds them. -/
theorem schedule_getElem_expanded (B : Vector Byte 64) {j : Nat} (hlo : 16 ≤ j) (hhi : j < 64) :
    (schedule B)[j] = (schedule B)[j - 16] + ssig0 (schedule B)[j - 15] + (schedule B)[j - 7] +
      ssig1 (schedule B)[j - 2] := by
  obtain ⟨n, rfl⟩ := Nat.exists_eq_add_of_le hlo
  have hread : ∀ k, 0 < k → k ≤ 16 → (schedule B)[16 + n - k] =
      getW (expandFirst (loadAll B (Vector.replicate 64 0)) n) (BitVec.ofNat 6 (16 + n - k)) :=
    fun k _ _ => schedule_getElem_of_lt B (by omega) (by omega)
  rw [schedule_getElem_of_lt B (n := n + 1) (by omega) (by omega), expandFirst_succ, getW_expandStep_self _ hlo,
    hread 16 (by decide) (by decide), hread 15 (by decide) (by decide), hread 7 (by decide) (by decide),
    hread 2 (by decide) (by decide)]

/-- The four words a sum reads are 0, and both sigmas of 0 are 0 (R115, R116). -/
theorem schedule_zero_getElem {j : Nat} (hj : j < 64) : (schedule (Vector.replicate 64 0))[j] = 0 := by
  induction j using Nat.strong_induction_on with
  | _ j ih =>
    obtain hlo | hlo := Nat.lt_or_ge j 16
    · rw [schedule_getElem_loaded _ hlo]
      simp [blockWord, beWord]
    · have hsigmas : (0 : Word) + ssig0 0 + 0 + ssig1 0 = 0 := by decide
      rw [schedule_getElem_expanded _ hlo hj, ih (j - 16) (by omega), ih (j - 15) (by omega),
        ih (j - 7) (by omega), ih (j - 2) (by omega), hsigmas]

/-! ### The rounds -/

theorem K_ofNat {t : Nat} (ht : t < 64) : K (BitVec.ofNat 6 t) = krom[t] := by
  simp [K, Nat.mod_eq_of_lt ht]

theorem roundStep_ofNat (W : Vector Word 64) (v : Vector Word 8) {t : Nat} (ht : t < 64) :
    roundStep W v (BitVec.ofNat 6 t) = round v krom[t] W[t] := by
  rw [roundStep, K_ofNat ht, getW_ofNat W t ht]

/-- The working variables after the first `n` rounds. -/
def roundsFirst (W : Vector Word 64) (v : Vector Word 8) (n : Nat) : Vector Word 8 :=
  (List.range n).foldl (fun v t => roundStep W v (BitVec.ofNat 6 t)) v

theorem roundsFirst_zero (W : Vector Word 64) (v : Vector Word 8) : roundsFirst W v 0 = v := rfl

theorem roundsFirst_succ (W : Vector Word 64) (v : Vector Word 8) (n : Nat) :
    roundsFirst W v (n + 1) = roundStep W (roundsFirst W v n) (BitVec.ofNat 6 n) := by
  simp [roundsFirst, List.range_succ]

theorem roundsAll_eq (W : Vector Word 64) (v : Vector Word 8) : roundsAll W v = roundsFirst W v 64 := rfl

/-! ### The state update -/

theorem feedForward_getElem (h v : Vector Word 8) {i : Nat} (hi : i < 8) :
    (feedForward h v)[i] = add32 h[i] v[i] :=
  Vector.getElem_zipWith hi

/-! ### The obligations on the Compressor -/

/-- Settles O43: the loaded words, the recurrence, and both of these by strong induction for the zero block. -/
theorem scheduleFollowsTheRecurrence : Obligations.ScheduleFollowsTheRecurrence :=
  ⟨fun B _ hi => (congrArg BitVec.toNat (schedule_getElem_loaded B hi)).trans (blockWord_toNat B hi),
    fun B _ => schedule_getElem_expanded B, fun _ => schedule_zero_getElem⟩

/-- Settles O44: the round is its definition, and the tuples are those after 0 to 64 rounds. -/
theorem roundsShiftTheWorkingVariables : Obligations.RoundsShiftTheWorkingVariables := by
  refine ⟨fun _ _ _ _ _ _ _ _ _ _ => rfl, fun W v => ⟨(List.range 65).map (roundsFirst W v), ?_⟩⟩
  have htuple : ∀ n < 65, ((List.range 65).map (roundsFirst W v))[n]? = some (roundsFirst W v n) :=
    fun _ hn => by rw [List.getElem?_map, List.getElem?_range hn, Option.map_some]
  refine ⟨by rw [List.length_map, List.length_range], ?first, ?last, fun t ht => ⟨_, htuple t (by omega), ?next⟩⟩
  case first => rw [htuple 0 (by decide), roundsFirst_zero]
  case last => rw [htuple 64 (by decide), roundsAll_eq]
  case next => rw [htuple (t + 1) (by omega), roundsFirst_succ, roundStep_ofNat W _ ht]

/-- Settles O45: the state update adds word by word, modulo 2^32. -/
theorem compressBlockFeedsForward : Obligations.CompressBlockFeedsForward := by
  intro h B i hi
  rw [compressBlock, feedForward_getElem _ _ hi, toNat_add32]

end Sys2Proof.Proofs
end

section
/-! SUPPORT. The Digest Formatter (43_formatter.md R191 to R193): each byte and each nibble of the digest as a
slice of its word, and the two forms element by element. -/

namespace Sys2Proof.Proofs

open Sys2Proof Sys2Proof.Machine Sys2Proof.Laws

/-! ### Bytes and nibbles as numbers -/

theorem digb_ofNat_toNat (h : Vector Word 8) {i : Nat} (hi : i < 32) :
    (digb h (BitVec.ofNat 5 i)).toNat = h[i / 4].toNat / 2 ^ (24 - 8 * (i % 4)) % 256 := by
  have hindex : (BitVec.ofNat 5 i).toNat = i := Nat.mod_eq_of_lt hi
  simp only [digb_toNat, hindex]

theorem nib_ofNat_toNat (h : Vector Word 8) {i : Nat} (hi : i < 64) :
    (nib h (BitVec.ofNat 6 i)).toNat = h[i / 8].toNat / 2 ^ (28 - 4 * (i % 8)) % 16 := by
  have hindex : (BitVec.ofNat 6 i).toNat = i := Nat.mod_eq_of_lt hi
  simp only [nib_toNat, hindex]

/-- The nibble is shifted down as far as its byte, and four places more where it is the high one, `b = 0`. -/
theorem nib_eq_half (h : Vector Word 8) {j b : Nat} (hj : j < 32) (hb : b < 2) :
    nib h (BitVec.ofNat 6 (2 * j + b)) = (digb h (BitVec.ofNat 5 j)).extractLsb' (4 * (1 - b)) 4 := by
  have hnib : 2 * j + b < 64 := by omega
  have hword : (2 * j + b) / 8 = j / 4 := by omega
  have hshift : 28 - 4 * ((2 * j + b) % 8) = 24 - 8 * (j % 4) + 4 * (1 - b) := by omega
  apply BitVec.eq_of_toNat_eq
  simp only [nib_ofNat_toNat h hnib, hword, hshift, BitVec.extractLsb'_toNat, digb_ofNat_toNat h hj,
    Nat.shiftRight_eq_div_pow, pow_add, ← Nat.div_div_eq_div_mul]
  interval_cases b <;> omega

/-! ### The two forms element by element -/

theorem be32_length (x : Word) : (be32 x).length = 4 := rfl

theorem flatMap_be32_length (ws : List Word) : (ws.flatMap be32).length = 4 * ws.length := by
  induction ws with
  | nil => rfl
  | cons w ws ih => rw [List.flatMap_cons, List.length_append, be32_length, ih, List.length_cons]; omega

/-- Each word takes four places: the first word holds the places below 4, the others those from 4 up. -/
theorem flatMap_be32_getElem? (ws : List Word) {i : Nat} (hi : i / 4 < ws.length) :
    (ws.flatMap be32)[i]? = (be32 ws[i / 4])[i % 4]? := by
  induction ws generalizing i with
  | nil => exact absurd hi (Nat.not_lt_zero _)
  | cons w ws ih =>
    rw [List.flatMap_cons]
    obtain hfirst | hrest := Nat.lt_or_ge i 4
    · simp [List.getElem?_append_left (be32_length w ▸ hfirst), Nat.div_eq_of_lt hfirst, Nat.mod_eq_of_lt hfirst]
    · obtain ⟨k, rfl⟩ := Nat.exists_eq_add_of_le' hrest
      have hword : (k + 4) / 4 = k / 4 + 1 := Nat.add_div_right k (by decide)
      have hk : k / 4 < ws.length := by simpa [hword] using hi
      have hskip : (be32 w ++ ws.flatMap be32)[k + 4]? = (ws.flatMap be32)[k]? :=
        List.getElem?_append_right (be32_length w ▸ hrest)
      simp [hskip, hword, ih hk]

theorem formatBytes_length (h : Vector Word 8) : (formatBytes h).length = 32 := by
  rw [formatBytes, flatMap_be32_length, Vector.length_toList]

theorem formatBytes_getElem? (h : Vector Word 8) {i : Nat} (hi : i < 32) :
    (formatBytes h)[i]? = some (digb h (BitVec.ofNat 5 i)) := by
  rw [formatBytes, flatMap_be32_getElem? _ (by rw [Vector.length_toList]; omega),
    be32_getElem? _ _ (Nat.mod_lt i (by decide)), Vector.getElem_toList]
  refine congrArg some (BitVec.eq_of_toNat_eq ?_)
  rw [digb_ofNat_toNat h hi, BitVec.toNat_ofNat]

theorem formatHex_length (h : Vector Word 8) : (formatHex h).length = 64 := by
  rw [formatHex, List.length_map, List.length_range]

theorem formatHex_getElem? (h : Vector Word 8) {i : Nat} (hi : i < 64) :
    (formatHex h)[i]? = some (digx h (BitVec.ofNat 6 i)) := by
  rw [formatHex, List.getElem?_map, List.getElem?_range hi, Option.map_some]

/-! ### The obligations on the Digest Formatter -/

/-- Settles O51: each byte of the concatenation is the byte RDB reads, and that byte as a number. -/
theorem digestBytesAreBigEndian : Obligations.DigestBytesAreBigEndian :=
  fun h => ⟨formatBytes_length h, fun _ hi => ⟨formatBytes_getElem? h hi, digb_ofNat_toNat h hi⟩⟩

/-- Settles O52: each character is the digit of its nibble, and the nibbles of a byte are its two halves. -/
theorem digestTextIsLowercaseHex : Obligations.DigestTextIsLowercaseHex := by
  refine ⟨fun h => ⟨formatHex_length h, fun i hi => ⟨formatHex_getElem? h hi, ?digit⟩⟩,
    fun h _ hj => ⟨nib_eq_half h hj (b := 0) (by decide), nib_eq_half h hj (b := 1) (by decide)⟩⟩
  case digit => rw [digx, hexchar_toNat, nib_ofNat_toNat h hi]

end Sys2Proof.Proofs
end

section
/-! SUPPORT. The words of the commands (30_encoding.md R82 to R85): a command and its one word name each
other, the words with an operand as numbers, and executing a word by what it decodes to. -/

namespace Sys2Proof.Proofs

open Sys2Proof Sys2Proof.Machine Sys2Proof.Laws

/-! ### A command and its word -/

theorem decode_packFields {op : BitVec 4} (hop : op.toNat < 9) (imm : Byte) :
    decode (packFields op 0 imm) = decodeOp op.toNat imm := by
  simp [decode, Nat.not_le.2 hop]

/-- An index inside its range is read back from the operand field it is widened to. -/
theorem ite_index_ok {n c : Nat} (hn : n ≤ 8) {k : BitVec n} (hk : k.toNat ≤ c) (f : BitVec n → Instr)
    (e : Illegal) :
    (if (k.setWidth 8).toNat ≤ c then Except.ok (f ((k.setWidth 8).setWidth n)) else .error e) =
      .ok (f k) := by
  have hwide : (k.setWidth 8).toNat = k.toNat := by
    rw [BitVec.toNat_setWidth, Nat.mod_eq_of_lt (k.isLt.trans_le (Nat.pow_le_pow_right (by decide) hn))]
  rw [if_pos (hwide ▸ hk), BitVec.setWidth_setWidth_of_le k hn, BitVec.setWidth_eq]

/-- An operand inside an index's range survives being cut down to it. -/
theorem setWidth_byte_setWidth {n : Nat} {imm : Byte} (h : imm.toNat < 2 ^ n) :
    (imm.setWidth n).setWidth 8 = imm := by
  apply BitVec.eq_of_toNat_eq
  rw [BitVec.toNat_setWidth, BitVec.toNat_setWidth, Nat.mod_eq_of_lt h, Nat.mod_eq_of_lt imm.isLt]

theorem decode_encode {i : Instr} (h : i.wf = true) : decode (encode i) = .ok i := by
  cases i with
  | nop | init | final | endraw => rfl
  | data b => exact decode_packFields (by decide) b
  | rdw k =>
    exact (decode_packFields (by decide) _).trans (ite_index_ok (by decide) (Nat.le_of_lt_succ k.isLt) .rdw _)
  | rdb k =>
    exact (decode_packFields (by decide) _).trans (ite_index_ok (by decide) (Nat.le_of_lt_succ k.isLt) .rdb _)
  | rdx k =>
    exact (decode_packFields (by decide) _).trans (ite_index_ok (by decide) (Nat.le_of_lt_succ k.isLt) .rdx _)
  | rdsr n =>
    exact (decode_packFields (by decide) _).trans (ite_index_ok (by decide) (of_decide_eq_true h) .rdsr _)

theorem encode_of_decode {w : Cmd} {i : Instr} (h : decode w = .ok i) : encode i = w := by
  obtain ⟨hrsv, hcases⟩ := decode_cases h
  rw [← packFields_fields w, hrsv]
  rcases hcases with ⟨hop, himm, rfl⟩ | ⟨hop, himm, rfl⟩ | ⟨hop, rfl⟩ | ⟨hop, himm, rfl⟩ |
    ⟨hop, himm, rfl⟩ | ⟨hop, himm, rfl⟩ | ⟨hop, himm, rfl⟩ | ⟨hop, himm, rfl⟩ | ⟨hop, himm, rfl⟩
  · rw [hop, himm, encode]
  · rw [hop, himm, encode]
  · rw [hop, encode]
  · rw [hop, himm, encode]
  · rw [hop, himm, encode]
  all_goals rw [hop, encode, setWidth_byte_setWidth (by omega)]

/-- A well-formed command has exactly one word (R82). -/
theorem decode_eq_ok_iff {w : Cmd} {i : Instr} (h : i.wf = true) : decode w = .ok i ↔ w = encode i :=
  ⟨fun hd => (encode_of_decode hd).symm, fun hw => hw ▸ decode_encode h⟩

/-- The word of an operation code with an index, as a sum. -/
theorem packFields_index {n : Nat} (hn : n ≤ 8) (op : BitVec 4) (k : BitVec n) :
    packFields op 0 (k.setWidth 8) = BitVec.ofNat 16 (op.toNat * 4096) + k.setWidth 16 := by
  have hop := op.isLt
  have hk : k.toNat < 2 ^ 8 := k.isLt.trans_le (Nat.pow_le_pow_right (by decide) hn)
  apply BitVec.eq_of_toNat_eq
  simp only [packFields_toNat, BitVec.toNat_add, BitVec.toNat_setWidth, BitVec.toNat_ofNat,
    BitVec.ofNat_eq_ofNat]
  omega

theorem decode_eq_rdw_iff (w : Cmd) (k : BitVec 3) :
    decode w = .ok (.rdw k) ↔ w = 0x5000 + k.setWidth 16 :=
  (decode_eq_ok_iff rfl).trans (by rw [encode, packFields_index (by decide)]; rfl)

theorem decode_eq_rdb_iff (w : Cmd) (k : BitVec 5) :
    decode w = .ok (.rdb k) ↔ w = 0x6000 + k.setWidth 16 :=
  (decode_eq_ok_iff rfl).trans (by rw [encode, packFields_index (by decide)]; rfl)

theorem decode_eq_rdx_iff (w : Cmd) (k : BitVec 6) :
    decode w = .ok (.rdx k) ↔ w = 0x7000 + k.setWidth 16 :=
  (decode_eq_ok_iff rfl).trans (by rw [encode, packFields_index (by decide)]; rfl)

theorem decode_eq_rdsr_iff (w : Cmd) {n : BitVec 3} (hn : n.toNat ≤ 4) :
    decode w = .ok (.rdsr n) ↔ w = 0x8000 + n.setWidth 16 :=
  (decode_eq_ok_iff (i := .rdsr n) (decide_eq_true hn)).trans (by rw [encode, packFields_index (by decide)]; rfl)

/-! ### Illegal words -/

/-- Past the last operand of its operation code a word is illegal (R84). -/
theorem legal_eq_false_of_range {w : Cmd} {op : Nat} (hlo : op * 4096 + operandCount op ≤ w.toNat)
    (hhi : w.toNat < (op + 1) * 4096) : legal w = false := by
  have hop : w.toNat / 4096 = op := by omega
  rw [← Bool.not_eq_true, legal_iff, hop]
  omega

theorem legal_iff_decode (w : Cmd) : legal w = true ↔ ∃ i, decode w = .ok i :=
  (legal_iff w).trans (decode_isOk_iff w).symm

theorem legal_eq_false_iff (w : Cmd) : legal w = false ↔ ∃ e, decode w = .error e := by
  rw [← Bool.not_eq_true, legal_iff_decode]
  cases decode w <;> simp

/-! ### Executing a word -/

theorem executeWord_of_decode {w : Cmd} {i : Instr} (h : decode w = .ok i) (s : State) :
    executeWord w s = exec i s := by
  simp only [executeWord, h]

theorem executeWord_encode {i : Instr} (h : i.wf = true) (s : State) :
    executeWord (encode i) s = exec i s := executeWord_of_decode (decode_encode h) s

theorem executeWord_of_illegal {w : Cmd} (h : legal w = false) (s : State) :
    executeWord w s = illegalCommand s := by
  obtain ⟨e, he⟩ := (legal_eq_false_iff w).1 h
  simp only [executeWord, he]

/-- An illegal word raises `ERR_CMD` in READY and DONE (R85). -/
theorem executeWord_illegal_raises {w : Cmd} {s : State} (h : legal w = false) (hp : s.PHASE ≠ .error) :
    executeWord w s = .next { s with PHASE := .error, ERR := .cmd, resp := some ⟨0, false, true⟩ } :=
  (executeWord_of_illegal h s).trans (illegalCommand_of_ne hp)

/-- Phase ERROR ignores every word but those of INIT and RDSR (R213). -/
theorem executeWord_ignored {w : Cmd} {s : State} (hp : s.PHASE = .error) (h1 : decode w ≠ .ok .init)
    (h2 : ∀ n, decode w ≠ .ok (.rdsr n)) :
    executeWord w s = .next { s with resp := some ⟨0, false, true⟩ } := by
  rw [← respond_of_error hp]
  cases hd : decode w with
  | error e =>
    have hillegal := (legal_eq_false_iff w).2 ⟨e, hd⟩
    exact (executeWord_of_illegal hillegal s).trans (illegalCommand_of_error hp)
  | ok i =>
    rw [executeWord_of_decode hd]
    exact exec_ignored hp (fun hi => h1 (hi ▸ hd)) (fun n hi => h2 n (hi ▸ hd))

theorem executeWord_seq_of_done {w : Cmd} {s : State} (hp : s.PHASE = .done)
    (h : (∃ b, decode w = .ok (.data b)) ∨ decode w = .ok .final ∨ decode w = .ok .endraw) :
    executeWord w s = .next (raiseErr .seq s) := by
  rcases h with ⟨b, hd⟩ | hd | hd <;> rw [executeWord_of_decode hd] <;> exact exec_seq_of_done hp (by simp)

theorem executeWord_seq_of_ready {w : Cmd} {s : State} (hp : s.PHASE = .ready)
    (h : (∃ k, decode w = .ok (.rdw k)) ∨ (∃ k, decode w = .ok (.rdb k)) ∨ ∃ k, decode w = .ok (.rdx k)) :
    executeWord w s = .next (raiseErr .seq s) := by
  rcases h with ⟨k, hd⟩ | ⟨k, hd⟩ | ⟨k, hd⟩ <;> rw [executeWord_of_decode hd] <;>
    exact exec_seq_of_ready hp (by simp)

/-- A word that takes the ENGINE into phase ERROR does so by an error entry (60_exceptions.md R248). -/
theorem executeWord_raises {w : Cmd} {s t : State} (h : executeWord w s = .next t)
    (hs : s.PHASE ≠ .error) (ht : t.PHASE = .error) : ∃ c, c ≠ .none ∧ t = raiseErr c s := by
  cases executed h with
  | illegal | seqDone | seqReady | len | align => exact ⟨_, by decide, rfl⟩
  | init | final | endraw => cases ht
  | data _ _ _ _ u hu =>
    obtain ⟨hphase, -⟩ := appendByte_fields hu
    exact absurd (hphase.symm.trans ht) hs
  | ignored | nop | rdw | rdb | rdx | rdsr => exact absurd ht hs

end Sys2Proof.Proofs
end

section
/-! SUPPORT. The commands one by one (44_commands.md R200 to R213): the outcomes of the commands that read and
of ENDRAW in each phase, the frame of every word, and the table of the phases. -/

namespace Sys2Proof.Proofs

open Sys2Proof Sys2Proof.Machine Sys2Proof.Laws

/-! ### The outcomes in each phase -/

/-- A command that reads answers its value in DONE only (R206 to R208). -/
theorem inDone_outcomes (val : State → Word) (s : State) :
    (s.PHASE = .done → inDone s (fun s => .next (respond (val s) s)) =
      .next { s with resp := some ⟨val s, true, false⟩ }) ∧
    (s.PHASE = .ready → inDone s (fun s => .next (respond (val s) s)) =
      .next { s with PHASE := .error, ERR := .seq, resp := some ⟨0, false, true⟩ }) ∧
    (s.PHASE = .error → inDone s (fun s => .next (respond (val s) s)) =
      .next { s with resp := some ⟨0, false, true⟩ }) :=
  ⟨fun hp => by rw [inDone_of_done hp, respond_of_done hp], fun hp => inDone_of_ready hp _,
    fun hp => by rw [inDone_of_error hp, respond_of_error hp]⟩

theorem exec_rdsr {s : State} {n : BitVec 3} {v : Word} (h : s.statusReg n = some v) :
    exec (.rdsr n) s = .next (respond v s) := by
  simp only [exec, execRdsr, h]

theorem exec_endraw_of_whole {s : State} (hp : s.PHASE = .ready) (hf : s.FILL = 0) :
    exec .endraw s = .next { s with PHASE := .done, resp := some ⟨0, true, false⟩ } := by
  rw [exec, execEndraw, inReady_of_ready hp, if_neg (not_not.2 hf)]
  rfl

theorem exec_endraw_of_ragged {s : State} (hp : s.PHASE = .ready) (hf : s.FILL ≠ 0) :
    exec .endraw s = .next { s with PHASE := .error, ERR := .align, resp := some ⟨0, false, true⟩ } := by
  rw [exec, execEndraw, inReady_of_ready hp, if_pos hf]
  rfl

/-- The data of RDB as a number (R191, R207). -/
theorem digestByte_toNat (s : State) (k : BitVec 5) :
    (s.digestByte k).toNat = s.H[k.toNat / 4].toNat / 2 ^ (24 - 8 * (k.toNat % 4)) % 256 := by
  rw [State.digestByte, BitVec.toNat_setWidth_of_le (by decide), digb_toNat]

/-- The data of RDX as a number (R193, R208). -/
theorem digestChar_toNat (s : State) (k : BitVec 6) :
    (s.digestChar k).toNat =
      if (nib s.H k).toNat ≤ 9 then 0x30 + (nib s.H k).toNat else 0x57 + (nib s.H k).toNat := by
  rw [State.digestChar, BitVec.toNat_setWidth_of_le (by decide), digx, hexchar_toNat]

/-! ### The obligations on single commands -/

/-- Settles O9: NOP has one word and answers 0 in every phase. -/
theorem nopAnswersZeroAndChangesNothing : Obligations.NopAnswersZeroAndChangesNothing :=
  ⟨fun _ => decode_eq_ok_iff rfl, fun _ => rfl⟩

/-- Settles O10: INIT has one word, puts fresh registers, and a second INIT or an RDSR finds them so. -/
theorem initStartsAFreshInvocation : Obligations.InitStartsAFreshInvocation := by
  refine ⟨fun _ => decode_eq_ok_iff rfl, fun _ => rfl, fun s t h => ?_⟩
  have hstatus := (freshRegisters_init h).statusReg (n := 0) (by decide)
  cases h
  exact ⟨rfl, exec_rdsr hstatus⟩

/-- Settles O16: the word, the illegal range, and the outcomes of a command that reads. -/
theorem rdwReadsAStateWord : Obligations.RdwReadsAStateWord :=
  ⟨decode_eq_rdw_iff, fun _ _ hlo hhi => executeWord_illegal_raises (legal_eq_false_of_range (op := 5) hlo hhi),
    fun k s => inDone_outcomes (fun s => s.word k) s⟩

/-- Settles O17: the word, the illegal range, and the outcomes of a command that reads. -/
theorem rdbReadsADigestByte : Obligations.RdbReadsADigestByte := by
  refine ⟨decode_eq_rdb_iff,
    fun _ _ hlo hhi => executeWord_illegal_raises (legal_eq_false_of_range (op := 6) hlo hhi), fun k s => ?_⟩
  obtain ⟨hdone, hready, herror⟩ := inDone_outcomes (fun s => s.digestByte k) s
  exact ⟨fun hp => ⟨_, digestByte_toNat s k, hdone hp⟩, hready, herror⟩

/-- Settles O18: the word, the illegal range, and the outcomes of a command that reads. -/
theorem rdxReadsADigestCharacter : Obligations.RdxReadsADigestCharacter := by
  refine ⟨decode_eq_rdx_iff,
    fun _ _ hlo hhi => executeWord_illegal_raises (legal_eq_false_of_range (op := 7) hlo hhi), fun k s => ?_⟩
  obtain ⟨hdone, hready, herror⟩ := inDone_outcomes (fun s => s.digestChar k) s
  exact ⟨fun hp => ⟨_, _, nib_toNat s.H k, digestChar_toNat s k, hdone hp⟩, hready, herror⟩

/-- Settles O19: the word, the illegal range in every phase, and the register, which exists. -/
theorem rdsrReadsAStatusRegister : Obligations.RdsrReadsAStatusRegister := by
  refine ⟨fun w _ => decode_eq_rdsr_iff w, fun w s hlo hhi => ?illegal, fun n s hn => ?register⟩
  case illegal =>
    have hillegal := legal_eq_false_of_range (op := 8) hlo hhi
    obtain ⟨e, he⟩ := (legal_eq_false_iff w).1 hillegal
    exact ⟨executeWord_illegal_raises hillegal, fun hp => executeWord_ignored hp (by simp [he]) (by simp [he])⟩
  case register =>
    obtain ⟨v, hv⟩ := statusReg_isSome (s := s) hn
    exact ⟨v, hv, exec_rdsr hv⟩

/-- Settles O46: the block of a full buffer is its bytes. -/
theorem compressBufCompressesTheBuffer : Obligations.CompressBufCompressesTheBuffer := by
  intro s hwritten
  have hfull := (firstUnwritten_eq_none s.BUF).2 hwritten
  exact ⟨s.BUF.block, read_block hfull, compressBuf_next hfull⟩

/-! ### The obligations on the frame and the phases -/

/-- Settles O28: INIT and RDSR run, and every other word is ignored. -/
theorem phaseErrorAdmitsOnlyInitAndRdsr : Obligations.PhaseErrorAdmitsOnlyInitAndRdsr := by
  intro w s hp
  refine ⟨fun hd => ⟨_, executeWord_of_decode hd s, rfl, rfl, rfl⟩, fun n hd => ?_, executeWord_ignored hp⟩
  obtain ⟨v, hv⟩ := statusReg_isSome (s := s) (decode_rdsr_le hd)
  exact ⟨v, hv, by rw [executeWord_of_decode hd, exec_rdsr hv, respond_of_error hp]⟩

/-- Settles O7: the checks in their order, and the two things a word leaves: a response with the outputs, and
on the way into phase ERROR nothing but an error entry. -/
theorem commandFrameChecksPhaseThenLegality : Obligations.CommandFrameChecksPhaseThenLegality := by
  intro w s
  refine ⟨fun hp hw => executeWord_ignored hp (mt decode_init_word hw),
    fun hp hl => executeWord_illegal_raises hl hp, fun hl => ?runs, fun hp => executeWord_seq_of_done hp,
    fun hp => executeWord_seq_of_ready hp, fun t h => ⟨?answers, fun hs ht => ?raises⟩⟩
  case runs =>
    obtain ⟨i, hd⟩ := (legal_iff_decode w).1 hl
    exact ⟨i, hd, executeWord_of_decode hd s⟩
  case answers =>
    obtain ⟨d, hresp, -⟩ := everyCommandAnswersTheValueReadOrZero w s t h
    exact ⟨d, hresp⟩
  case raises =>
    obtain ⟨c, hc, rfl⟩ := executeWord_raises h hs ht
    exact ⟨rfl, hc⟩

/-- Settles O30: each outcome of `Executed` lies in one row of the table, and a hardware reset is taken first. -/
theorem phaseTransitionsAreTheTable : Obligations.PhaseTransitionsAreTheTable := by
  refine ⟨fun w s t h => ?_, fun s rest hin => ⟨_, step_of_reset hin, rfl⟩⟩
  cases executed h with
  | ignored hp h1 => simp [hp, h1]
  | nop hd | init hd => simp [hd]
  | illegal hp e hd => simp [hd]
  | seqDone hp hd => rcases hd with ⟨b, hd⟩ | hd | hd <;> simp [hd, hp]
  | seqReady hp hd => rcases hd with ⟨k, hd⟩ | ⟨k, hd⟩ | ⟨k, hd⟩ <;> simp [hd, hp]
  | len hp b hd hl =>
    have hlimit : s.LEN.toNat = 2 ^ 61 - 1 := hl
    simp [hd, hp, hlimit]
  | data hp b hd hl u hu =>
    have hlimit : s.LEN.toNat ≠ 2 ^ 61 - 1 := hl
    obtain ⟨hphase, -⟩ := appendByte_fields hu
    simpa [hd, hp, hphase] using hlimit
  | final hp hd => simp [hd, hp]
  | align hp hd hf => simpa [hd, hp] using hf
  | endraw hp hd hf => simp [hd, hp, hf]
  | rdw hp k hd | rdb hp k hd | rdx hp k hd => simp [hd, hp]
  | rdsr n v hd => simp [hd]

end Sys2Proof.Proofs
end

section
/-! SUPPORT. What command sequences compute (44_commands.md R203 to R205, R208, R211, R212): the blocks of a
message are compressed one by one as they become complete, the messages DATA and FINAL extend, and runs of
issued commands. -/

namespace Sys2Proof.Proofs

open Sys2Proof Sys2Proof.Machine Sys2Proof.Laws

/-! ### The blocks compressed so far -/

/-- A counter below its limit counts one up. -/
theorem toNat_add_one {w : Nat} {x : BitVec w} (h : x.toNat + 1 < 2 ^ w) : (x + 1).toNat = x.toNat + 1 := by
  rw [BitVec.toNat_add, BitVec.ofNat_eq_ofNat, BitVec.toNat_ofNat, Nat.add_mod_mod, Nat.mod_eq_of_lt h]

/-- The ENGINE has compressed exactly the first `n` blocks of `p` (10_state.md R28, R37 c). -/
structure HashedBlocks (s : State) (p : List Byte) (n : Nat) : Prop where
  hash : s.H = compressPrefix p n
  blkcnt : s.BLKCNT.toNat = n

/-- A block compression of the next block's bytes compresses one block more (R210). -/
theorem hashedBlocks_compressed {s : State} {p : List Byte} {n : Nat} (h : HashedBlocks s p n)
    (hn : n + 1 < 2 ^ 56) (hbytes : ∀ j, j < 64 → s.BUF.read j = p[64 * n + j]?) :
    HashedBlocks (compressed s) p (n + 1) := by
  have hblock : s.BUF.block = blockOf p n := by
    ext1 j hj
    rw [block_getElem _ j hj, hbytes j hj, blockOf, tabulate_getElem, List.getD_eq_getElem?_getD]
  refine ⟨?_, ?_⟩
  · rw [compressed_H, hblock, h.hash, compressPrefix_succ]
  · rw [compressed_BLKCNT, toNat_add_one (h.blkcnt ▸ hn), h.blkcnt]

/-- The same with the bytes of `BUF` named, so that they are not unfolded to be compared. -/
theorem hashedBlocks_compressed_withBuf {buf : Memory} {s : State} {p : List Byte} {n : Nat}
    (h : HashedBlocks s p n) (hn : n + 1 < 2 ^ 56)
    (hbytes : ∀ j, j < 64 → buf.read j = p[64 * n + j]?) :
    HashedBlocks (compressed (withBuf buf s)) p (n + 1) :=
  hashedBlocks_compressed ⟨h.hash, h.blkcnt⟩ hn hbytes

/-- Bytes that follow do not change the blocks before them. -/
theorem hashedBlocks_append {s : State} {p l : List Byte} {n : Nat} (h : HashedBlocks s p n)
    (hn : 64 * n ≤ p.length) : HashedBlocks s (p ++ l) n :=
  ⟨h.hash.trans (compressPrefix_append p l n hn).symm, h.blkcnt⟩

/-! ### A message partly received -/

theorem absorbed_of_fresh {t : State} (h : FreshRegisters t) : Absorbed t [] where
  phase := h.PHASE
  err := h.ERR
  idle := by rw [h.SEQ]; rfl
  len := by rw [h.LEN]; rfl
  fill := by rw [h.FILL]; rfl
  blkcnt := by rw [h.BLKCNT]; rfl
  hash := by rw [h.H]; rfl
  bytes := fun j hj => absurd hj (Nat.not_lt_zero j)

section
variable {s : State} {m : List Byte} (h : Absorbed s m)
include h

theorem absorbed_withInputs (l : List HostEvent) : Absorbed { s with inputs := l } m := { h with }

theorem absorbed_respond (d : Word) : Absorbed (respond d s) m := { h with }

theorem absorbed_hashedBlocks (l : List Byte) : HashedBlocks s (m ++ l) (m.length / 64) :=
  hashedBlocks_append ⟨h.hash, h.blkcnt⟩ (Nat.mul_div_le m.length 64)

theorem absorbed_length : m.length < 2 ^ 61 := h.len ▸ s.LEN.isLt

theorem absorbed_written (a : Nat) (ha : a < s.FILL.toNat) : (s.BUF.read a).isSome = true := by
  have hfill := h.fill
  rw [h.bytes a (hfill ▸ ha), List.getElem?_eq_getElem (by omega), Option.isSome_some]

/-- The bytes below `FILL` are those of the block being assembled, whatever follows the message. -/
theorem absorbed_read (l : List Byte) {j : Nat} (hj : j < s.FILL.toNat) :
    s.BUF.read j = (m ++ l)[64 * (m.length / 64) + j]? := by
  have hfill := h.fill
  rw [h.bytes j (hfill ▸ hj), List.getElem?_append_left (by omega)]

/-- With the next byte stored at `FILL`, the bytes up to it are those of the longer message. -/
theorem absorbed_read_write (b : Byte) (l : List Byte) {j : Nat} (hj : j ≤ s.FILL.toNat) :
    (s.BUF.write s.FILL.toNat b).read j = (m ++ b :: l)[64 * (m.length / 64) + j]? := by
  have hfill := h.fill
  rw [read_write]
  split
  · rename_i hlast
    have hend : 64 * (m.length / 64) + j = m.length := by omega
    rw [hend, List.getElem?_append_right (Nat.le_refl _), Nat.sub_self, List.getElem?_cons_zero]
  · exact absorbed_read h _ (by omega)

/-- DATA's byte extends the message received, and completes a block where `FILL` was 63 (R203). -/
theorem absorbed_appendByte (b : Byte) (hm : m.length < Config.maxLen) :
    ∃ u, appendByte b s = .next u ∧ Absorbed u (m ++ [b]) := by
  obtain ⟨u, hu⟩ := appendByte_next (b := b) (absorbed_written h)
  obtain ⟨hphase, herr, hseq, -, -, -, hlen⟩ := appendByte_fields hu
  have hmax : m.length < 2 ^ 61 - 1 := hm
  have hfill := h.fill
  have hlength : (m ++ [b]).length = m.length + 1 := List.length_append
  have hlen : u.LEN.toNat = (m ++ [b]).length := by
    rw [hlen, hlength, toNat_add_one (by rw [h.len]; omega), h.len]
  have hread := fun j => absorbed_read_write h b [] (j := j)
  have hblocks := absorbed_hashedBlocks h [b]
  refine ⟨u, hu, ?_⟩
  rcases appendByte_cases hu with ⟨hlt, rfl⟩ | ⟨h63, -, rfl⟩
  · have hdiv : (m ++ [b]).length / 64 = m.length / 64 := by omega
    have hmod : (m ++ [b]).length % 64 = s.FILL.toNat + 1 := by omega
    refine ⟨hphase.trans h.phase, herr.trans h.err, hseq ▸ h.idle, hlen, ?_, hdiv ▸ hblocks.blkcnt,
      hdiv ▸ hblocks.hash, fun j hj => ?_⟩
    · rw [hmod, toNat_add_one (by omega)]
    · rw [hdiv]
      exact hread j (by omega)
  · have hdiv : (m ++ [b]).length / 64 = m.length / 64 + 1 := by omega
    have hmod : (m ++ [b]).length % 64 = 0 := by omega
    rw [h63] at hread
    have hblocks : HashedBlocks (compressed { s with BUF := s.BUF.write 63 b, LEN := s.LEN + 1 }) (m ++ [b])
        (m.length / 64 + 1) :=
      hashedBlocks_compressed ⟨hblocks.hash, hblocks.blkcnt⟩ (by omega) fun j hj => hread j (by omega)
    rw [← hdiv] at hblocks
    exact ⟨hphase.trans h.phase, herr.trans h.err, hseq ▸ h.idle, hlen, hmod.symm, hblocks.blkcnt,
      hblocks.hash, fun j hj => absurd hj (by omega)⟩

theorem absorbed_execData (b : Byte) (hm : m.length < Config.maxLen) :
    ∃ u, exec (.data b) s = .next (respond 0 u) ∧ u.inputs = s.inputs ∧ Absorbed u (m ++ [b]) := by
  obtain ⟨u, hu, habs⟩ := absorbed_appendByte h b hm
  obtain ⟨-, -, -, hinputs, -⟩ := appendByte_fields hu
  have hlen : s.LEN.toNat ≠ Config.maxLen := h.len ▸ hm.ne
  refine ⟨u, ?_, hinputs, habs⟩
  rw [exec, execData, inReady_of_ready h.phase, if_neg hlen, hu, andThen_next]

end

/-! ### FINAL produces the padded message -/

theorem padBytes_whole (m : List Byte) : (padBytes m).length % 64 = 0 := by
  have haligns := zeroFill_aligns m.length
  rw [padBytes_length]
  omega

/-- The last block FINAL builds is the block of the padded message that ends it, where the bytes below
its first store are already in place (R143). -/
theorem read_lengthBlock_padBytes {m : List Byte} {buf : Memory} {i n : Nat} {L : BitVec 61}
    (hL : L.toNat = m.length) (hi : i ≤ 56) (hstart : m.length < 64 * n + i)
    (hend : 64 * n + 56 = m.length + 1 + zeroFill m.length)
    (hbelow : ∀ j, j < i → buf.read j = (padBytes m)[64 * n + j]?) (j : Nat) (hj : j < 64) :
    (lengthBlock buf i L).read j = (padBytes m)[64 * n + j]? := by
  rw [read_lengthBlock buf i L j hi hj]
  split
  · exact hbelow j ‹_›
  · obtain ⟨k, hk⟩ := Nat.exists_eq_add_of_lt (show m.length < 64 * n + j by omega)
    have hoffset : 64 * n + j = m.length + 1 + k := by omega
    rw [hoffset]
    split
    · exact (padBytes_getElem?_zero (by omega)).symm
    · have hfield : k - zeroFill m.length = j - 56 := by omega
      rw [padBytes_getElem?_afterMarker, List.getElem?_append_right (by simp; omega),
        List.length_replicate, hfield, bitLen_eq, hL]

section
variable {s : State} {m : List Byte} (h : Absorbed s m)
include h

/-- The first of FINAL's two blocks is the block of the padded message that holds the marker (R147). -/
theorem read_markedBlock_padBytes (h56 : 56 ≤ s.FILL.toNat) (j : Nat) (hj : j < 64) :
    (markedBlock s.BUF s.FILL.toNat).read j = (padBytes m)[64 * (m.length / 64) + j]? := by
  have hfill := h.fill
  have haligns := zeroFill_aligns m.length
  rw [read_markedBlock _ _ _ s.FILL.isLt hj]
  split
  · rw [padBytes_eq_append]
    exact absorbed_read h _ ‹_›
  · split
    · have hmarker : 64 * (m.length / 64) + j = m.length := by omega
      rw [hmarker, padBytes_getElem?_marker]
    · obtain ⟨k, hk⟩ := Nat.exists_eq_add_of_lt (show m.length < 64 * (m.length / 64) + j by omega)
      have hoffset : 64 * (m.length / 64) + j = m.length + 1 + k := by omega
      rw [hoffset, padBytes_getElem?_zero (by omega)]

/-- FINAL's padding compresses the rest of the padded message, one block or two (R204, R147). -/
theorem absorbed_padAndCompress : ∃ u, padAndCompress s = .next u ∧ u.FILL = 0 ∧
    HashedBlocks u (padBytes m) ((padBytes m).length / 64) := by
  have hfill := h.fill
  have haligns := zeroFill_aligns m.length
  have hzeros := zeroFill_lt m.length
  have hdomain := absorbed_length h
  have hlength := padBytes_length m
  have hblocks : HashedBlocks s (padBytes m) (m.length / 64) :=
    padBytes_eq_append m ▸ absorbed_hashedBlocks h _
  by_cases h55 : s.FILL.toNat ≤ 55
  · have hcount : (padBytes m).length / 64 = m.length / 64 + 1 := by omega
    refine ⟨_, padAndCompress_one h55 (absorbed_written h), rfl, hcount ▸ ?_⟩
    refine hashedBlocks_compressed_withBuf hblocks (by omega) ?_
    refine read_lengthBlock_padBytes h.len (by omega) (by omega) (by omega) fun j hj => ?_
    rw [padBytes_eq_append]
    exact absorbed_read_write h _ _ (Nat.le_of_lt_succ hj)
  · have h56 : 56 ≤ s.FILL.toNat := by omega
    have hcount : (padBytes m).length / 64 = m.length / 64 + 1 + 1 := by omega
    refine ⟨_, padAndCompress_two h56 (absorbed_written h), rfl, hcount ▸ ?_⟩
    have hmarked := hashedBlocks_compressed_withBuf hblocks (by omega) (read_markedBlock_padBytes h h56)
    refine hashedBlocks_compressed_withBuf hmarked (by omega) ?_
    exact read_lengthBlock_padBytes h.len (Nat.zero_le 56) (by omega) (by omega)
      fun j hj => absurd hj (Nat.not_lt_zero j)

theorem absorbed_execFinal : ∃ u, exec .final s = .next u ∧ u.PHASE = .done ∧ u.SEQ = s.SEQ ∧
    u.inputs = s.inputs ∧ (pad m).bind compress = some u.H := by
  obtain ⟨u, hu, -, hblocks⟩ := absorbed_padAndCompress h
  obtain ⟨-, -, hseq, hinputs, -⟩ := padAndCompress_fields hu
  have hdomain : m.length ≤ Config.maxLen := Nat.le_sub_one_of_lt (absorbed_length h)
  refine ⟨respond 0 { u with PHASE := .done }, ?_, rfl, hseq, hinputs, ?_⟩
  · rw [exec, execFinal, inReady_of_ready h.phase, hu, andThen_next]
  · rw [pad, if_pos hdomain, Option.bind_some, compress, if_pos (padBytes_whole m), ← hblocks.hash]
    rfl

/-- With no byte of a further block received, the message is whole blocks and all are compressed. -/
theorem absorbed_compress (hm : m.length % 64 = 0) : compress m = some s.H := by
  rw [compress, if_pos hm, h.hash]

end

/-! ### Runs of issued commands -/

/-- A run that goes on, and the run after it. -/
theorem run_add {k n : Nat} {s u : State} (h : core.run k s = .next u) :
    core.run (k + n) s = core.run n u := by
  induction k generalizing s with
  | zero => cases h; rw [Nat.zero_add]
  | succ k ih =>
    obtain ⟨v, hv, h⟩ := run_cases h
    rw [Nat.succ_add, run_of_step hv, ih h]

/-- The step that takes an issued command. -/
theorem step_of_issued {s : State} {i : Instr} {rest : List HostEvent}
    (h : s.inputs = .command (encode i) :: rest) (hs : s.SEQ.stage = .idle) (hi : i.wf = true) :
    step s = exec i { s with inputs := rest } :=
  (step_of_command h hs).trans (executeWord_encode hi _)

theorem issue_append (p q : List Instr) : issue (p ++ q) = issue p ++ issue q := List.map_append

/-- The DATA commands of a message, one after another, extend the message received by it (R211). -/
theorem run_msg {l : List Byte} {s : State} {m : List Byte} {rest : List HostEvent} (h : Absorbed s m)
    (hlen : m.length + l.length ≤ Config.maxLen) (hin : s.inputs = issue (msg l) ++ rest) :
    ∃ t, core.run l.length s = .next t ∧ Absorbed t (m ++ l) ∧ t.inputs = rest := by
  induction l generalizing s m with
  | nil => exact ⟨s, rfl, (List.append_nil m).symm ▸ h, hin⟩
  | cons b l ih =>
    rw [List.length_cons] at hlen
    obtain ⟨u, hexec, hinputs, habs⟩ := absorbed_execData
      (absorbed_withInputs h (issue (msg l) ++ rest)) b (by omega)
    obtain ⟨t, hrun, ht⟩ := ih (absorbed_respond habs 0) (by simp; omega) hinputs
    refine ⟨t, ?_, by simpa using ht⟩
    rw [List.length_cons, run_of_step ((step_of_issued hin h.idle rfl).trans hexec), hrun]

/-- INIT and the DATA commands of a message, from any state at rest. -/
theorem run_init_msg {m : List Byte} {s : State} {rest : List HostEvent} (hm : m.length ≤ Config.maxLen)
    (hs : s.SEQ.stage = .idle) (hin : s.inputs = issue (.init :: msg m) ++ rest) :
    ∃ t, core.run (m.length + 1) s = .next t ∧ Absorbed t m ∧ t.inputs = rest := by
  have hinit : exec .init { s with inputs := issue (msg m) ++ rest } = .next _ := rfl
  have hfresh := freshRegisters_init hinit
  obtain ⟨t, hrun, ht⟩ := run_msg (l := m) (absorbed_of_fresh hfresh) (by simpa using hm) rfl
  exact ⟨t, (run_of_step ((step_of_issued hin hs rfl).trans hinit)).trans hrun, ht⟩

/-- A hardware reset and the DATA commands of a message, from any state. -/
theorem run_reset_msg {m : List Byte} {s : State} {rest : List HostEvent} (hm : m.length ≤ Config.maxLen)
    (hin : s.inputs = .reset :: (issue (msg m) ++ rest)) :
    ∃ t, core.run (m.length + 1) s = .next t ∧ Absorbed t m ∧ t.inputs = rest := by
  have hfresh := freshRegisters_hardwareReset { s with inputs := issue (msg m) ++ rest }
  obtain ⟨t, hrun, ht⟩ := run_msg (l := m) (absorbed_of_fresh hfresh) (by simpa using hm) rfl
  exact ⟨t, (run_of_step (step_of_reset hin)).trans hrun, ht⟩

/-- FINAL after a message: the digest of the message, whatever is issued next. -/
theorem run_final {s : State} {m : List Byte} {rest : List HostEvent} (h : Absorbed s m)
    (hin : s.inputs = issue [.final] ++ rest) :
    ∃ t, core.run 1 s = .next t ∧ t.PHASE = .done ∧ t.SEQ.stage = .idle ∧ t.inputs = rest ∧
      (pad m).bind compress = some t.H := by
  obtain ⟨t, hexec, hphase, hseq, hinputs, hhash⟩ := absorbed_execFinal (absorbed_withInputs h rest)
  exact ⟨t, run_of_step ((step_of_issued hin h.idle rfl).trans hexec), hphase, hseq ▸ h.idle, hinputs, hhash⟩

/-- ENDRAW after a message: the compression of whole blocks, or `ERR_ALIGN` (R205). -/
theorem run_endraw {s : State} {m : List Byte} {rest : List HostEvent} (h : Absorbed s m)
    (hin : s.inputs = issue [.endraw] ++ rest) :
    ∃ t, core.run 1 s = .next t ∧ (m.length % 64 = 0 → t.PHASE = .done ∧ compress m = some t.H) ∧
      (m.length % 64 ≠ 0 → t.PHASE = .error ∧ t.ERR = .align) := by
  have hfill : s.FILL = 0 ↔ m.length % 64 = 0 := by
    rw [← h.fill]
    exact BitVec.toNat_eq
  have hstep := step_of_issued hin h.idle rfl
  by_cases hm : m.length % 64 = 0
  · have hhash := absorbed_compress h hm
    have hexec := exec_endraw_of_whole (s := { s with inputs := rest }) h.phase (hfill.2 hm)
    exact ⟨_, run_of_step (hstep.trans hexec), fun _ => ⟨rfl, hhash⟩, absurd hm⟩
  · have hexec := exec_endraw_of_ragged (s := { s with inputs := rest }) h.phase (mt hfill.1 hm)
    exact ⟨_, run_of_step (hstep.trans hexec), fun h0 => absurd h0 hm, fun _ => ⟨rfl, rfl⟩⟩

/-- The RDX commands issued in phase DONE answer their characters one by one (R208). -/
theorem run_rdx {ks : List (BitVec 6)} {s : State} {rest : List HostEvent} (hp : s.PHASE = .done)
    (hs : s.SEQ.stage = .idle) (hin : s.inputs = issue (ks.map .rdx) ++ rest) {i : Nat} {k : BitVec 6}
    (hi : ks[i]? = some k) :
    ∃ u, core.run (i + 1) s = .next u ∧ u.resp = some ⟨s.digestChar k, true, false⟩ := by
  induction ks generalizing s i with
  | nil => simp at hi
  | cons x ks ih =>
    have hstep : step s = .next { s with
        inputs := issue (ks.map .rdx) ++ rest, resp := some ⟨s.digestChar x, true, false⟩ } :=
      (step_of_issued hin hs rfl).trans ((inDone_outcomes (fun s => s.digestChar x) _).1 hp)
    rw [run_of_step hstep]
    cases i with
    | zero => cases hi; exact ⟨_, rfl, rfl⟩
    | succ i => exact ih (s := { s with
        inputs := issue (ks.map .rdx) ++ rest, resp := some ⟨s.digestChar x, true, false⟩ }) hp hs rfl hi

/-! ### The obligations on command sequences -/

theorem run_sha256Seq {m : List Byte} {s : State} {rest : List HostEvent} (hm : m.length ≤ Config.maxLen)
    (hs : s.SEQ.stage = .idle) (hin : s.inputs = issue (sha256Seq m) ++ rest) :
    ∃ t, core.run (m.length + 2) s = .next t ∧ t.PHASE = .done ∧ t.SEQ.stage = .idle ∧ t.inputs = rest ∧
      (pad m).bind compress = some t.H := by
  rw [sha256Seq, ← List.cons_append, issue_append, List.append_assoc] at hin
  obtain ⟨u, hrun, habs, hinputs⟩ := run_init_msg hm hs hin
  obtain ⟨t, hfinal, ht⟩ := run_final habs hinputs
  exact ⟨t, (run_add (n := 1) hrun).trans hfinal, ht⟩

theorem run_compressSeq {p : List Byte} {s : State} {rest : List HostEvent} (hp : p.length ≤ Config.maxLen)
    (hs : s.SEQ.stage = .idle) (hin : s.inputs = issue (compressSeq p) ++ rest) :
    ∃ t, core.run (p.length + 2) s = .next t ∧
      (p.length % 64 = 0 → t.PHASE = .done ∧ compress p = some t.H) ∧
      (p.length % 64 ≠ 0 → t.PHASE = .error ∧ t.ERR = .align) := by
  rw [compressSeq, ← List.cons_append, issue_append, List.append_assoc] at hin
  obtain ⟨u, hrun, habs, hinputs⟩ := run_init_msg hp hs hin
  obtain ⟨t, hendraw, ht⟩ := run_endraw habs hinputs
  exact ⟨t, (run_add (n := 1) hrun).trans hendraw, ht⟩

/-- Settles O15: the outcomes in each phase, and the hash state INIT or whole blocks leave. -/
theorem endrawEndsAWholeNumberOfBlocks : Obligations.EndrawEndsAWholeNumberOfBlocks := by
  refine ⟨fun _ => decode_eq_ok_iff rfl, fun s => ⟨fun hp => ?ignored, fun hp => ?outOfSequence,
    exec_endraw_of_ragged, exec_endraw_of_whole⟩, fun s t h => ?afterInit, fun s p habs hf => ?afterBlocks⟩
  case ignored => rw [exec_ignored hp (by simp) (by simp), respond_of_error hp]
  case outOfSequence => exact exec_seq_of_done hp (by simp)
  case afterInit =>
    have hfresh := freshRegisters_init h
    exact ⟨_, exec_endraw_of_whole hfresh.PHASE hfresh.FILL, hfresh.H, rfl⟩
  case afterBlocks =>
    have hwhole : p.length % 64 = 0 := by rw [← habs.fill, hf]; rfl
    have hhash := absorbed_compress habs hwhole
    exact ⟨_, exec_endraw_of_whole habs.phase hf, hhash⟩

/-- Settles O57: the run of INIT or a reset, the DATA commands and FINAL, then the RDX commands one by one. -/
theorem sha256CommandsComputeSha256 : Obligations.Sha256CommandsComputeSha256 := by
  refine ⟨fun m s rest hm hs hin => ?afterInit, fun m s rest hm hin => ?afterReset⟩
  case afterInit =>
    rw [issue_append, List.append_assoc] at hin
    obtain ⟨t, hrun, hphase, hidle, hinputs, hhash⟩ := run_sha256Seq hm hs hin
    have hsha : sha256 m = some (formatHex t.H) := by rw [sha256, hhash, Option.map_some]
    refine ⟨t, formatHex t.H, hrun, hphase, hhash, hsha, formatHex_length t.H, fun i hi => ?_⟩
    have hindex : ((List.range 64).map (BitVec.ofNat 6))[i]? = some (BitVec.ofNat 6 i) := by
      rw [List.getElem?_map, List.getElem?_range hi, Option.map_some]
    have hhex : rdHex = ((List.range 64).map (BitVec.ofNat 6)).map .rdx := by rw [rdHex, List.map_map]; rfl
    obtain ⟨u, hread, hresp⟩ := run_rdx hphase hidle (hhex ▸ hinputs) hindex
    exact ⟨u, (run_add hrun).trans hread, _, formatHex_getElem? t.H hi, hresp⟩
  case afterReset =>
    rw [issue_append, List.append_assoc] at hin
    obtain ⟨u, hrun, habs, hinputs⟩ := run_reset_msg hm hin
    obtain ⟨t, hfinal, hphase, -, -, hhash⟩ := run_final habs hinputs
    exact ⟨t, (run_add (n := 1) hrun).trans hfinal, hphase, hhash⟩

/-- Settles O58: the run of INIT, the DATA commands and ENDRAW; a padded message is whole blocks. -/
theorem compressCommandsComputeCompress : Obligations.CompressCommandsComputeCompress := by
  refine ⟨fun p s rest hp hs hin => run_compressSeq hp hs hin, fun m P s s' hP hlen hs hs' hin hin' => ?_⟩
  obtain ⟨hm, rfl⟩ := (pad_eq_some_iff m P).1 hP
  obtain ⟨t, hrun, -, -, -, hhash⟩ := run_sha256Seq hm hs (hin.trans (List.append_nil _).symm)
  obtain ⟨t', hrun', hwhole, -⟩ := run_compressSeq hlen hs' (hin'.trans (List.append_nil _).symm)
  obtain ⟨-, hhash'⟩ := hwhole (padBytes_whole m)
  rw [hP, Option.bind_some, hhash'] at hhash
  exact ⟨t, t', hrun, hrun', Option.some.inj hhash⟩

end Sys2Proof.Proofs
end

section
/-! SUPPORT. The errors (60_exceptions.md R241, R248, R251): each code has its cause, a command takes the
ENGINE into phase ERROR exactly when it has one, and there the first error stays until INIT or a reset. -/

namespace Sys2Proof.Proofs

open Sys2Proof Sys2Proof.Machine Sys2Proof.Laws

/-! ### The causes -/

/-- What raises an error, by its code: the command word and the state before it (R241). -/
def ErrorCause (w : Cmd) (s : State) : ErrCode → Prop
  | .none => False
  | .align => decode w = .ok .endraw ∧ s.PHASE = .ready ∧ s.FILL ≠ 0
  | .len => (∃ b, decode w = .ok (.data b)) ∧ s.PHASE = .ready ∧ s.LEN.toNat = Config.maxLen
  | .seq =>
    (((∃ b, decode w = .ok (.data b)) ∨ decode w = .ok .final ∨ decode w = .ok .endraw) ∧ s.PHASE = .done) ∨
      (((∃ k, decode w = .ok (.rdw k)) ∨ (∃ k, decode w = .ok (.rdb k)) ∨ ∃ k, decode w = .ok (.rdx k)) ∧
        s.PHASE = .ready)
  | .cmd => legal w = false

theorem exec_data_at_limit {s : State} (hp : s.PHASE = .ready) (hl : s.LEN.toNat = Config.maxLen) (b : Byte) :
    exec (.data b) s = .next (raiseErr .len s) := by
  rw [exec, execData, inReady_of_ready hp, if_pos hl]

/-- A cause raises its error. -/
theorem executeWord_of_cause {w : Cmd} {s : State} {c : ErrCode} (hs : s.PHASE ≠ .error)
    (h : ErrorCause w s c) : executeWord w s = .next (raiseErr c s) := by
  cases c with
  | none => exact h.elim
  | align =>
    obtain ⟨hd, hp, hf⟩ := h
    exact (executeWord_of_decode hd s).trans (exec_endraw_of_ragged hp hf)
  | len =>
    obtain ⟨⟨b, hd⟩, hp, hl⟩ := h
    exact (executeWord_of_decode hd s).trans (exec_data_at_limit hp hl b)
  | seq =>
    obtain ⟨hd, hp⟩ | ⟨hd, hp⟩ := h
    · exact executeWord_seq_of_done hp hd
    · exact executeWord_seq_of_ready hp hd
  | cmd => exact executeWord_illegal_raises h hs

/-- On the way into phase ERROR, the code in `ERR` had its cause. -/
theorem errorCause_of_raised {w : Cmd} {s t : State} (h : executeWord w s = .next t)
    (hs : s.PHASE ≠ .error) (ht : t.PHASE = .error) : ErrorCause w s t.ERR := by
  cases executed h with
  | illegal _ e hd => exact (legal_eq_false_iff w).2 ⟨e, hd⟩
  | seqDone hp hd => exact .inl ⟨hd, hp⟩
  | seqReady hp hd => exact .inr ⟨hd, hp⟩
  | len hp b hd hl => exact ⟨⟨b, hd⟩, hp, hl⟩
  | align hp hd hf => exact ⟨hd, hp, hf⟩
  | init | final | endraw => cases ht
  | data _ _ _ _ u hu =>
    obtain ⟨hphase, -⟩ := appendByte_fields hu
    exact absurd (hphase.symm.trans ht) hs
  | ignored | nop | rdw | rdb | rdx | rdsr => exact absurd ht hs

theorem raised_iff_errorCause {w : Cmd} {s t : State} (hs : s.PHASE ≠ .error)
    (h : executeWord w s = .next t) (c : ErrCode) : (t.PHASE = .error ∧ t.ERR = c) ↔ ErrorCause w s c := by
  constructor
  · rintro ⟨ht, rfl⟩
    exact errorCause_of_raised h hs ht
  · intro hcause
    cases h.symm.trans (executeWord_of_cause hs hcause)
    exact ⟨rfl, rfl⟩

/-! ### The first error stays -/

/-- In phase ERROR every word but INIT's keeps the phase and the code (R251). -/
theorem executeWord_keeps_error {w : Cmd} {s : State} (hp : s.PHASE = .error) (hw : w ≠ 0x1000) :
    ∃ t, executeWord w s = .next t ∧ t.PHASE = .error ∧ t.ERR = s.ERR := by
  obtain ⟨-, hrdsr, hignored⟩ := phaseErrorAdmitsOnlyInitAndRdsr w s hp
  by_cases hd : ∃ n, decode w = .ok (.rdsr n)
  · obtain ⟨n, hd⟩ := hd
    obtain ⟨v, -, hrun⟩ := hrdsr n hd
    exact ⟨_, hrun, hp, rfl⟩
  · exact ⟨_, hignored (mt decode_init_word hw) (not_exists.1 hd), hp, rfl⟩

/-! ### The obligations on errors -/

/-- Settles O27: `ERR` holds a code exactly where that code has its cause, and no error has none. -/
theorem eachErrorHasItsCause : Obligations.EachErrorHasItsCause := by
  refine ⟨⟨rfl, rfl, rfl, rfl, rfl, fun c => by cases c <;> decide⟩, fun w s t hs h => ?_⟩
  have hiff := raised_iff_errorCause hs h
  exact ⟨hiff .align, hiff .len, hiff .seq, hiff .cmd, fun ht herr => (hiff .none).1 ⟨ht, herr⟩⟩

/-- Settles O29: the next event is none, a reset, INIT or a word that keeps the error. -/
theorem errorsDoNotNest : Obligations.ErrorsDoNotNest := by
  intro s hp hs
  cases hin : s.inputs with
  | nil => exact ⟨s, step_of_nothing hin hs, by simp, fun _ => ⟨hp, rfl⟩⟩
  | cons event rest =>
    cases event with
    | reset =>
      exact ⟨_, step_of_reset hin, fun _ => ⟨rfl, rfl⟩, fun hother => absurd ⟨rest, .inr rfl⟩ hother⟩
    | command w =>
      by_cases hw : w = 0x1000
      · subst hw
        exact ⟨_, step_of_init hin hs, fun _ => ⟨rfl, rfl⟩, fun hother => absurd ⟨rest, .inl rfl⟩ hother⟩
      · obtain ⟨t, hrun, hkept⟩ := executeWord_keeps_error (s := { s with inputs := rest }) hp hw
        exact ⟨t, (step_of_command hin hs).trans hrun, fun hclears => absurd (by simpa using hclears) hw,
          fun _ => hkept⟩

/-- Settles O26: a word that takes the ENGINE into phase ERROR does so by the error entry alone. -/
theorem errorEntryIsPrecise : Obligations.ErrorEntryIsPrecise := by
  refine ⟨fun c s => rfl, fun w s t hs h ht => ?_⟩
  obtain ⟨c, -, rfl⟩ := executeWord_raises h hs ht
  exact ⟨rfl, rfl, rfl, rfl, rfl, rfl, rfl, rfl, rfl, rfl⟩

end Sys2Proof.Proofs
end

section
/-! SUPPORT. One block compression as 130 micro-steps (42_compressor.md R173): the state between two
micro-steps, what each micro-step makes of it, and the run of all of them. -/

namespace Sys2Proof.Proofs

open Sys2Proof Sys2Proof.Machine Sys2Proof.Laws

/-! ### The schedule, from whatever the schedule words held -/

/-- The schedule words after the first `n` loads. -/
def loadFirst (B : Vector Byte 64) (W : Vector Word 64) (n : Nat) : Vector Word 64 :=
  (List.range n).foldl (fun W t => loadStep B W (BitVec.ofNat 4 t)) W

theorem loadFirst_succ (B : Vector Byte 64) (W : Vector Word 64) (n : Nat) :
    loadFirst B W (n + 1) = loadStep B (loadFirst B W n) (BitVec.ofNat 4 n) := by
  simp [loadFirst, List.range_succ]

theorem loadAll_eq (B : Vector Byte 64) (W : Vector Word 64) : loadAll B W = loadFirst B W 16 := rfl

/-- A word once written does not depend on what stood in the schedule before the block. -/
theorem getW_expandFirst_loadAll (B : Vector Byte 64) (W W' : Vector Word 64) {n j : Nat} (hn : n ≤ 48)
    (hj : j < 16 + n) :
    getW (expandFirst (loadAll B W) n) (BitVec.ofNat 6 j) =
      getW (expandFirst (loadAll B W') n) (BitVec.ofNat 6 j) := by
  induction n generalizing j with
  | zero =>
    rw [expandFirst_zero, expandFirst_zero, getW_loadAll _ _ _ (by omega), getW_loadAll _ _ _ (by omega),
      if_pos hj, if_pos hj]
  | succ n ih =>
    rw [expandFirst_succ, expandFirst_succ]
    by_cases hlast : j = 16 + n
    · subst hlast
      rw [getW_expandStep_self _ (by omega), getW_expandStep_self _ (by omega)]
      have hread := fun k (hk : 0 < k) => ih (j := 16 + n - k) (by omega) (by omega)
      rw [hread 16 (by decide), hread 15 (by decide), hread 7 (by decide), hread 2 (by decide)]
    · have hother : BitVec.ofNat 6 (16 + n) ≠ BitVec.ofNat 6 j := by
        rw [Ne, ofNat6_inj (by omega) (by omega)]
        omega
      rw [expandStep, expandStep, getW_setW, getW_setW, if_neg hother, if_neg hother,
        ih (by omega) (by omega)]

theorem expandAll_loadAll (B : Vector Byte 64) (W : Vector Word 64) :
    expandAll (loadAll B W) = schedule B := by
  ext1 j hj
  rw [schedule, ← getW_ofNat _ j hj, ← getW_ofNat _ j hj, expandAll_eq, expandAll_eq]
  exact getW_expandFirst_loadAll B W _ le_rfl hj

/-- A four-byte read of a full buffer is a word of its block. -/
theorem readWord_block {m : Memory} (h : m.firstUnwritten = none) {n : Nat} (hn : n < 16) :
    m.readWord (4 * n) = .ok (blockWord m.block (BitVec.ofNat 4 n)) := by
  have hwritten := (firstUnwritten_eq_none m).1 h
  have hindex : (BitVec.ofNat 4 n).toNat = n := Nat.mod_eq_of_lt hn
  rw [readWord_ok m (4 * n) fun j hj => hwritten _ (by omega)]
  simp only [blockWord, hindex, block_getElem]

/-! ### The state between two micro-steps -/

/-- The state `s` with its block compression under way: the scratch registers and the sequencer. -/
def underway (s : State) (W : Vector Word 64) (V : Vector Word 8) (stage : Stage) (t : Nat) : State :=
  { s with W := W, V := V, SEQ := ⟨stage, BitVec.ofNat 6 t⟩ }

theorem ofNat6_toNat {t : Nat} (ht : t < 64) : (BitVec.ofNat 6 t).toNat = t := Nat.mod_eq_of_lt ht

/-- A counting stage counts its index up and hands over at its last value. -/
theorem underway_next (s : State) (W : Vector Word 64) (V : Vector Word 8) (stage next : Stage)
    (first : BitVec 6) {t last : Nat} (ht : t < 64) (hlast : last < 64) :
    { s with W := W, V := V, SEQ :=
        if BitVec.ofNat 6 t = BitVec.ofNat 6 last then ⟨next, first⟩ else ⟨stage, BitVec.ofNat 6 t + 1⟩ } =
      if t = last then underway s W V next first.toNat else underway s W V stage (t + 1) := by
  simp only [ofNat6_inj ht hlast, underway, BitVec.ofNat_toNat, BitVec.setWidth_eq, BitVec.ofNat_add]
  split <;> rfl

section
variable {s : State} (hin : ∀ rest, s.inputs ≠ .reset :: rest)
include hin

theorem step_underway {W : Vector Word 64} {V : Vector Word 8} {stage : Stage} {t : Nat}
    (h : stage ≠ .idle) : step (underway s W V stage t) = microStep (underway s W V stage t) :=
  step_micro h hin

theorem step_load (hfull : s.BUF.firstUnwritten = none) (W : Vector Word 64) (V : Vector Word 8) {n : Nat}
    (hn : n < 16) :
    step (underway s W V .load n) =
      .next (if n = 15 then underway s (loadStep s.BUF.block W (BitVec.ofNat 4 n)) V .expand 16
        else underway s (loadStep s.BUF.block W (BitVec.ofNat 4 n)) V .load (n + 1)) := by
  have hindex : (BitVec.ofNat 4 n).setWidth 6 = BitVec.ofNat 6 n := by
    apply BitVec.eq_of_toNat_eq
    simp
    omega
  rw [step_underway hin (by decide)]
  simp only [microStep, underway, microLoad, ofNat6_toNat (show n < 64 by omega), if_pos hn,
    readWord_block hfull hn, loadStep, hindex]
  exact congrArg _ (underway_next s _ V .load .expand 16 (by omega) (last := 15) (by decide))

theorem step_expand (W : Vector Word 64) (V : Vector Word 8) {t : Nat} (hlo : 16 ≤ t) (hhi : t < 64) :
    step (underway s W V .expand t) =
      .next (if t = 63 then underway s (expandStep W (BitVec.ofNat 6 t)) V .vinit 0
        else underway s (expandStep W (BitVec.ofNat 6 t)) V .expand (t + 1)) := by
  rw [step_underway hin (by decide)]
  simp only [microStep, underway, microExpand, ofNat6_toNat hhi, if_pos hlo]
  exact congrArg _ (underway_next s _ V .expand .vinit 0 hhi (last := 63) (by decide))

theorem step_vinit (W : Vector Word 64) (V : Vector Word 8) :
    step (underway s W V .vinit 0) = .next (underway s W s.H .round 0) := by
  rw [step_underway hin (by decide)]
  rfl

theorem step_round (W : Vector Word 64) (V : Vector Word 8) {t : Nat} (ht : t < 64) :
    step (underway s W V .round t) =
      .next (if t = 63 then underway s W (roundStep W V (BitVec.ofNat 6 t)) .add 0
        else underway s W (roundStep W V (BitVec.ofNat 6 t)) .round (t + 1)) := by
  rw [step_underway hin (by decide)]
  exact congrArg _ (underway_next s W _ .round .add 0 ht (last := 63) (by decide))

theorem step_add (W : Vector Word 64) (V : Vector Word 8) :
    step (underway s W V .add 0) = .next { s with
      W := W, V := V, H := feedForward s.H V, BLKCNT := s.BLKCNT + 1, FILL := 0, SEQ := Sequencer.home } := by
  rw [step_underway hin (by decide)]
  rfl

end

/-! ### The run of the micro-steps -/

/-- A run of `k` steps, prolonged along states each of which steps to the next. -/
theorem run_along {k N : Nat} {s : State} {f : Nat → State} (h : core.run k s = .next (f 0))
    (hstep : ∀ n, n + 1 < N → step (f n) = .next (f (n + 1))) {n : Nat} (hn : n < N) :
    core.run (k + n) s = .next (f n) := by
  induction n with
  | zero => exact h
  | succ n ih => exact (run_add (n := 1) (ih (by omega))).trans (run_of_step (hstep n hn))

section
variable {s : State} (hin : ∀ rest, s.inputs ≠ .reset :: rest) (hfull : s.BUF.firstUnwritten = none)
include hin hfull

theorem run_load {n : Nat} (hn : n < 16) : core.run n (beginBlock s) =
    .next (underway s (loadFirst s.BUF.block s.W n) s.V .load n) := by
  have hrun := run_along (k := 0) (N := 16) (s := beginBlock s)
    (f := fun n => underway s (loadFirst s.BUF.block s.W n) s.V .load n) rfl
    (fun n hn => by rw [step_load hin hfull _ _ (by omega), if_neg (by omega), loadFirst_succ]) hn
  rwa [Nat.zero_add] at hrun

theorem run_expand {n : Nat} (hn : n < 48) : core.run (16 + n) (beginBlock s) =
    .next (underway s (expandFirst (loadAll s.BUF.block s.W) n) s.V .expand (16 + n)) := by
  refine run_along (f := fun n => underway s (expandFirst (loadAll s.BUF.block s.W) n) s.V .expand (16 + n))
    ?_ (fun n hn => ?_) hn
  · refine (run_add (n := 1) (run_load hin hfull (n := 15) (by decide))).trans (run_of_step ?_)
    rw [step_load hin hfull _ _ (by decide), if_pos rfl, ← loadFirst_succ, ← loadAll_eq, expandFirst_zero]
  · rw [step_expand hin _ _ (by omega) (by omega), if_neg (by omega), expandFirst_succ]
    rfl

theorem run_vinit : core.run 64 (beginBlock s) =
    .next (underway s (schedule s.BUF.block) s.V .vinit 0) := by
  refine (run_add (n := 1) (run_expand hin hfull (n := 47) (by decide))).trans (run_of_step ?_)
  rw [step_expand hin _ _ (by decide) (by decide), if_pos rfl, ← expandFirst_succ, ← expandAll_eq,
    expandAll_loadAll]

theorem run_rounds {n : Nat} (hn : n < 64) : core.run (65 + n) (beginBlock s) =
    .next (underway s (schedule s.BUF.block) (roundsFirst (schedule s.BUF.block) s.H n) .round n) := by
  refine run_along
    (f := fun n => underway s (schedule s.BUF.block) (roundsFirst (schedule s.BUF.block) s.H n) .round n)
    ?_ (fun n hn => ?_) hn
  · exact (run_add (n := 1) (run_vinit hin hfull)).trans (run_of_step (step_vinit hin _ _))
  · rw [step_round hin _ _ (by omega), if_neg (by omega), roundsFirst_succ]

theorem run_last_round : core.run 129 (beginBlock s) =
    .next (underway s (schedule s.BUF.block) (roundsAll (schedule s.BUF.block) s.H) .add 0) := by
  refine (run_add (n := 1) (run_rounds hin hfull (n := 63) (by decide))).trans (run_of_step ?_)
  rw [step_round hin _ _ (by decide), if_pos rfl, ← roundsFirst_succ, ← roundsAll_eq]

/-- The micro-steps end in the state `CompressBuf` leaves (R173). -/
theorem run_block (hidle : s.SEQ = Sequencer.home) : core.run 130 (beginBlock s) = .next (compressed s) := by
  refine (run_add (n := 1) (run_last_round hin hfull)).trans (run_of_step ?_)
  rw [step_add hin, ← hidle]
  rfl

/-- Before each of the 130 micro-steps the sequencer runs. -/
theorem run_underway {n : Nat} (hn : n < 130) : ∃ W V stage t, stage ≠ Stage.idle ∧
    core.run n (beginBlock s) = .next (underway s W V stage t) := by
  by_cases hload : n < 16
  · exact ⟨_, _, .load, _, by decide, run_load hin hfull hload⟩
  by_cases hexpand : n < 64
  · obtain ⟨k, rfl⟩ := Nat.exists_eq_add_of_le (Nat.le_of_not_lt hload)
    exact ⟨_, _, .expand, _, by decide, run_expand hin hfull (by omega)⟩
  by_cases hvinit : n = 64
  · exact ⟨_, _, .vinit, _, by decide, hvinit ▸ run_vinit hin hfull⟩
  by_cases hround : n < 129
  · obtain ⟨k, rfl⟩ := Nat.exists_eq_add_of_le (show 65 ≤ n by omega)
    exact ⟨_, _, .round, _, by decide, run_rounds hin hfull (by omega)⟩
  · obtain rfl : n = 129 := by omega
    exact ⟨_, _, .add, _, by decide, run_last_round hin hfull⟩

end

/-! ### The obligation on the sequencer -/

/-- Settles O47: the run through the five stages, and the state before each micro-step. -/
theorem microStepsRefineCompressBuf : Obligations.MicroStepsRefineCompressBuf := by
  intro s hidle hwritten hin
  have hfull := (firstUnwritten_eq_none s.BUF).2 hwritten
  refine ⟨⟨compressed s, compressBuf_next hfull, run_block hin hfull hidle⟩, fun n hn => ?_⟩
  obtain ⟨W, V, stage, t, hstage, hrun⟩ := run_underway hin hfull hn
  exact ⟨_, hrun, hstage, rfl, rfl⟩

end Sys2Proof.Proofs
end

section
/-! SUPPORT. The invariant of every command boundary (10_state.md R37): it holds at reset, no step stops from
a state that meets it, and every step keeps it. -/

namespace Sys2Proof.Proofs

open Sys2Proof Sys2Proof.Machine Sys2Proof.Laws

/-! ### What storing a byte and padding keep -/

section
variable {b : Byte} {s u : State}

theorem wf_appendByte (hu : appendByte b s = .next u) (h : s.BUF.wf) : u.BUF.wf := by
  rcases appendByte_cases hu with ⟨-, rfl⟩ | ⟨-, -, rfl⟩
  · exact wf_write h s.FILL.isLt
  · exact wf_write h (by decide)

/-- The byte stored at `FILL` is written too. -/
theorem written_appendByte (hu : appendByte b s = .next u)
    (h : ∀ a, a < s.FILL.toNat → (s.BUF.read a).isSome = true) (a : Nat) (ha : a < u.FILL.toNat) :
    (u.BUF.read a).isSome = true := by
  rcases appendByte_cases hu with ⟨h63, rfl⟩ | ⟨-, -, rfl⟩
  · rw [toNat_add_one (by omega)] at ha
    rw [read_write]
    split
    · rfl
    · exact h a (by omega)
  · exact absurd ha (Nat.not_lt_zero a)

/-- An accepted byte counts `LEN` up, and with it `FILL`, or `BLKCNT` where `FILL` comes to 64 (R37 b). -/
theorem midCounts_appendByte (hu : appendByte b s = .next u) (h : MidCounts s)
    (hl : s.LEN.toNat ≠ Config.maxLen) : MidCounts u := by
  obtain ⟨hfill, hblk⟩ := h
  have hlt := s.LEN.isLt
  have hmax : s.LEN.toNat ≠ 2 ^ 61 - 1 := hl
  have hlen : (s.LEN + 1).toNat = s.LEN.toNat + 1 := toNat_add_one (by omega)
  rcases appendByte_cases hu with ⟨h63, rfl⟩ | ⟨h63, -, rfl⟩
  · have hnext : (s.FILL + 1).toNat = s.FILL.toNat + 1 := toNat_add_one (by omega)
    simp only [MidCounts, hlen, hnext]
    omega
  · have hnext : (s.BLKCNT + 1).toNat = s.BLKCNT.toNat + 1 := toNat_add_one (by omega)
    have hzero : (0 : BitVec 6).toNat = 0 := rfl
    simp only [MidCounts, compressed_FILL, compressed_LEN, compressed_BLKCNT, hlen, hnext, hzero]
    omega

theorem wf_padAndCompress (hu : padAndCompress s = .next u) (h : s.BUF.wf) : u.BUF.wf := by
  have hfill := s.FILL.isLt
  rcases padAndCompress_cases hu with ⟨h55, -, rfl⟩ | ⟨-, -, rfl⟩ <;> rw [compressed_BUF, withBuf_BUF]
  · exact wf_lengthBlock _ (wf_write h hfill) (Nat.succ_le_succ h55)
  · exact wf_lengthBlock _ (wf_markedBlock h hfill) (Nat.zero_le 56)

/-- FINAL completes the last block, or the last two, of the padded message (R37 d). -/
theorem paddedCounts_padAndCompress (hu : padAndCompress s = .next u) (h : MidCounts s) :
    PaddedCounts u := by
  obtain ⟨hfill, hblk⟩ := h
  have hlt := s.LEN.isLt
  have hone : (s.BLKCNT + 1).toNat = s.BLKCNT.toNat + 1 := toNat_add_one (by omega)
  have htwo : (s.BLKCNT + 1 + 1).toNat = s.BLKCNT.toNat + 2 := by rw [toNat_add_one (by omega), hone]
  rcases padAndCompress_cases hu with ⟨h55, -, rfl⟩ | ⟨h56, -, rfl⟩ <;> refine ⟨rfl, ?_⟩ <;>
    simp only [compressed_BLKCNT, compressed_LEN, withBuf_BLKCNT, withBuf_LEN, hone, htwo] <;> omega

end

/-! ### The invariant after the named updates -/

/-- A response shows the outputs, so what is left to hold is the rest of the invariant. -/
theorem boundaryInv_respond {s : State} (d : Word) (hseq : s.SEQ = Sequencer.home)
    (herr : s.ERR ≠ .none ↔ s.PHASE = .error) (hwf : s.BUF.wf)
    (hwritten : ∀ a, a < s.FILL.toNat → (s.BUF.read a).isSome = true) (hcounts : CountsOk s) :
    BoundaryInv (respond d s) :=
  ⟨hseq, herr, hwf, hwritten, hcounts, by rintro _ ⟨⟩; exact ⟨rfl, rfl⟩⟩

theorem boundaryInv_of_fresh {t : State} (h : FreshRegisters t) (hwf : t.BUF.wf)
    (hout : ∀ r, t.resp = some r → r.done = t.doneOut ∧ r.err = t.errOut) : BoundaryInv t where
  seqHome := h.SEQ
  errPhase := by simp [h.ERR, h.PHASE]
  bufWf := hwf
  written := fun a ha => by simp [h.FILL] at ha
  counts := by simp [CountsOk, h.PHASE, MidCounts, h.FILL, h.LEN, h.BLKCNT]
  outputs := hout

theorem countsOk_of_ready {s : State} (hp : s.PHASE = .ready) : CountsOk s ↔ MidCounts s := by
  simp only [CountsOk, hp]

theorem countsOk_of_done {s : State} (hp : s.PHASE = .done) :
    CountsOk s ↔ PaddedCounts s ∨ (s.FILL = 0 ∧ MidCounts s) := by
  simp only [CountsOk, hp]

/-- In every phase the counters are those of a message being received or those after FINAL. -/
theorem midCounts_or_paddedCounts {s : State} (h : CountsOk s) : MidCounts s ∨ PaddedCounts s := by
  unfold CountsOk at h
  split at h
  · exact .inl h
  · exact h.symm.imp_left And.right
  · exact h

section
variable {s : State} (h : BoundaryInv s)
include h

theorem boundaryInv_withInputs (l : List HostEvent) : BoundaryInv { s with inputs := l } := { h with }

theorem boundaryInv_answer (d : Word) : BoundaryInv (respond d s) :=
  boundaryInv_respond d h.seqHome h.errPhase h.bufWf h.written h.counts

theorem boundaryInv_raiseErr {c : ErrCode} (hc : c ≠ .none) : BoundaryInv (raiseErr c s) :=
  have hcounts : MidCounts s ∨ PaddedCounts s := midCounts_or_paddedCounts h.counts
  boundaryInv_respond 0 h.seqHome (iff_of_true hc rfl) h.bufWf h.written hcounts

theorem boundaryInv_initialise : BoundaryInv (respond 0 (initialise s)) :=
  boundaryInv_of_fresh ⟨rfl, rfl, rfl, rfl, rfl, rfl, rfl⟩ h.bufWf (by rintro _ ⟨⟩; exact ⟨rfl, rfl⟩)

theorem boundaryInv_endraw (hp : s.PHASE = .ready) (hf : s.FILL = 0) :
    BoundaryInv (respond 0 { s with PHASE := .done }) :=
  boundaryInv_respond 0 h.seqHome (by simpa [hp] using h.errPhase) h.bufWf h.written
    (.inr ⟨hf, (countsOk_of_ready hp).1 h.counts⟩)

theorem boundaryInv_data (hp : s.PHASE = .ready) (hl : s.LEN.toNat ≠ Config.maxLen) {b : Byte} {u : State}
    (hu : appendByte b s = .next u) : BoundaryInv (respond 0 u) := by
  obtain ⟨hphase, herr, hseq, -⟩ := appendByte_fields hu
  have hmid := midCounts_appendByte hu ((countsOk_of_ready hp).1 h.counts) hl
  exact boundaryInv_respond 0 (hseq.trans h.seqHome) (by rw [herr, hphase]; exact h.errPhase)
    (wf_appendByte hu h.bufWf) (written_appendByte hu h.written) ((countsOk_of_ready (hphase.trans hp)).2 hmid)

theorem boundaryInv_final (hp : s.PHASE = .ready) {u : State} (hu : padAndCompress s = .next u) :
    BoundaryInv (respond 0 { u with PHASE := .done }) := by
  obtain ⟨-, herr, hseq, -⟩ := padAndCompress_fields hu
  have hnone : s.ERR = .none := by simpa [hp] using h.errPhase
  obtain ⟨hfill, hblk⟩ := paddedCounts_padAndCompress hu ((countsOk_of_ready hp).1 h.counts)
  have hwf : u.BUF.wf := wf_padAndCompress hu h.bufWf
  exact boundaryInv_respond 0 (hseq.trans h.seqHome) (by simp [herr, hnone]) hwf
    (fun a ha => by simp [hfill] at ha) (.inl ⟨hfill, hblk⟩)

/-- Every command and every illegal word keeps the invariant. -/
theorem boundaryInv_executeWord {w : Cmd} {t : State} (hx : executeWord w s = .next t) : BoundaryInv t := by
  cases executed hx with
  | ignored | nop | rdw | rdb | rdx | rdsr => exact boundaryInv_answer h _
  | illegal | seqDone | seqReady | len | align => exact boundaryInv_raiseErr h (by decide)
  | init => exact boundaryInv_initialise h
  | data hp _ _ hl u hu => exact boundaryInv_data h hp hl hu
  | final hp _ u hu => exact boundaryInv_final h hp hu
  | endraw hp _ hf => exact boundaryInv_endraw h hp hf

theorem boundaryInv_idle : s.SEQ.stage = .idle := by rw [h.seqHome]; rfl

end

/-- A word goes on wherever the bytes below `FILL` are written. -/
theorem executeWord_next {s : State} (h : ∀ a, a < s.FILL.toNat → (s.BUF.read a).isSome = true) (w : Cmd) :
    ∃ t, executeWord w s = .next t := by
  unfold executeWord
  split
  · exact exec_next h
  · by_cases hp : s.PHASE = .error
    · exact ⟨_, illegalCommand_of_error hp⟩
    · exact ⟨_, illegalCommand_of_ne hp⟩

/-! ### The block count -/

theorem executeWord_BLKCNT {w : Cmd} {s t : State} (h : executeWord w s = .next t) :
    t.BLKCNT = 0 ∨ t.BLKCNT = s.BLKCNT ∨ t.BLKCNT = s.BLKCNT + 1 ∨ t.BLKCNT = s.BLKCNT + 1 + 1 := by
  cases executed h with
  | init => exact .inl rfl
  | data _ _ _ _ u hu =>
    rcases appendByte_cases hu with ⟨-, rfl⟩ | ⟨-, -, rfl⟩
    · exact .inr (.inl rfl)
    · exact .inr (.inr (.inl rfl))
  | final _ _ u hu =>
    rcases padAndCompress_cases hu with ⟨-, -, rfl⟩ | ⟨-, -, rfl⟩
    · exact .inr (.inr (.inl rfl))
    · exact .inr (.inr (.inr rfl))
  | _ => exact .inr (.inl rfl)

/-- The counters bound the number of blocks by that of a padded message of the largest length. -/
theorem boundaryInv_BLKCNT_le {s : State} (h : BoundaryInv s) : s.BLKCNT.toNat ≤ 2 ^ 55 + 1 := by
  have hlen := s.LEN.isLt
  rcases midCounts_or_paddedCounts h.counts with ⟨-, hblk⟩ | ⟨-, hblk⟩ <;> omega

/-! ### The obligations on the invariant -/

/-- Settles O36: the step is a reset, none, or a word that is executed; the sequencer is at rest. -/
theorem everyStepKeepsTheInvariant : Obligations.EveryStepKeepsTheInvariant := by
  intro s t h hstep
  rcases step_cases hstep with ⟨rest, -, rfl⟩ | ⟨-, hruns, -⟩ | ⟨-, -, rfl⟩ | ⟨w, rest, -, -, hx⟩
  · exact boundaryInv_of_fresh (freshRegisters_hardwareReset _) wf_reset (by simp)
  · exact absurd (boundaryInv_idle h) hruns
  · exact h
  · exact boundaryInv_executeWord (boundaryInv_withInputs h rest) hx

/-- Settles O37: an idle ENGINE waits, takes the reset, or executes a word, which reads written bytes only. -/
theorem everyStepProceeds : Obligations.EveryStepProceeds := by
  intro s h
  have hidle := boundaryInv_idle h
  cases hin : s.inputs with
  | nil => exact ⟨s, step_of_nothing hin hidle⟩
  | cons event rest =>
    cases event with
    | reset => exact ⟨_, step_of_reset hin⟩
    | command w =>
      obtain ⟨t, ht⟩ := executeWord_next (s := { s with inputs := rest }) h.written w
      exact ⟨t, (step_of_command hin hidle).trans ht⟩

/-- Settles O35: the registers are fresh, `BUF` is empty and no response is held. -/
theorem resetMeetsTheInvariant : Obligations.ResetMeetsTheInvariant :=
  boundaryInv_of_fresh freshRegisters_reset wf_reset (fun _ hr => by cases hr)

/-- Settles O23: the bound leaves room for the two blocks that FINAL counts. -/
theorem blkcntNeverWraps : Obligations.BlkcntNeverWraps := by
  intro s t h hstep
  have hbound := boundaryInv_BLKCNT_le h
  have hone : (s.BLKCNT + 1).toNat = s.BLKCNT.toNat + 1 := toNat_add_one (by omega)
  have htwo : (s.BLKCNT + 1 + 1).toNat = s.BLKCNT.toNat + 2 := by rw [toNat_add_one (by omega), hone]
  refine ⟨hbound, ?_⟩
  rcases step_cases hstep with ⟨rest, -, rfl⟩ | ⟨-, hruns, -⟩ | ⟨-, -, rfl⟩ | ⟨w, rest, -, -, hx⟩
  · exact .inl rfl
  · exact absurd (boundaryInv_idle h) hruns
  · exact .inr (.inl rfl)
  · rcases executeWord_BLKCNT hx with h0 | hsame | h1 | h2
    · exact .inl h0
    · exact .inr (.inl hsame)
    · exact .inr (.inr (.inl (h1 ▸ hone)))
    · exact .inr (.inr (.inr (h2 ▸ htwo)))

end Sys2Proof.Proofs
end

section
/-! SUPPORT. The words of the commands and the step (30_encoding.md R82 to R85, 44_commands.md R200): the
round trip of encoder and decoder, and what a step does with the event presented. -/

namespace Sys2Proof.Proofs

open Sys2Proof Sys2Proof.Machine Sys2Proof.Laws

/-- The decoder makes well-formed commands only: RDSR is the one with a range to keep. -/
theorem wf_of_decode {w : Cmd} {i : Instr} (h : decode w = .ok i) : i.wf = true := by
  cases i with
  | rdsr n => exact decide_eq_true (decode_rdsr_le h)
  | _ => rfl

/-- Fresh registers leave room for a difference in scratch only (R38, R39). -/
theorem sameButScratch_of_fresh {s t : State} (hs : FreshRegisters s) (ht : FreshRegisters t)
    (hinputs : s.inputs = t.inputs) (hresp : s.resp = t.resp) : SameButScratch s t where
  H := hs.H.trans ht.H.symm
  FILL := hs.FILL.trans ht.FILL.symm
  LEN := hs.LEN.trans ht.LEN.symm
  BLKCNT := hs.BLKCNT.trans ht.BLKCNT.symm
  PHASE := hs.PHASE.trans ht.PHASE.symm
  ERR := hs.ERR.trans ht.ERR.symm
  SEQ := hs.SEQ.trans ht.SEQ.symm
  inputs := hinputs
  resp := hresp
  bytes := fun a ha => by simp [hs.FILL] at ha

/-! ### The obligations on words -/

/-- Settles O1: by the fields of the packed word, command by command. -/
theorem encodedCommandDecodesToItself : Obligations.EncodedCommandDecodesToItself :=
  fun _ h => decode_encode h

/-- Settles O2: the fields of an accepted word are those its command packs. -/
theorem decodedWordIsItsOwnEncoding : Obligations.DecodedWordIsItsOwnEncoding :=
  fun _ _ h => ⟨wf_of_decode h, encode_of_decode h⟩

/-- Settles O4: each word is the encoding of its command, and the all-ones word has a reserved operation code. -/
theorem sampleWordsDecodeAsTheOpcodeMapSays : Obligations.SampleWordsDecodeAsTheOpcodeMapSays :=
  ⟨decode_encode (i := .nop) rfl, decode_encode (i := .init) rfl, decode_encode (i := .data 0x61) rfl,
    decode_encode (i := .final) rfl, decode_encode (i := .endraw) rfl, decode_encode (i := .rdw 7) rfl,
    decode_encode (i := .rdb 31) rfl, decode_encode (i := .rdx 63) rfl, decode_encode (i := .rdsr 4) rfl, rfl⟩

/-- Settles O14: the one word of FINAL, and the two phases that do not allow it. -/
theorem finalOutsideReadyIsRefused : Obligations.FinalOutsideReadyIsRefused := by
  refine ⟨fun _ => decode_eq_ok_iff rfl, fun s => ⟨fun hp => ?outOfSequence, fun hp => ?ignored⟩⟩
  case outOfSequence => exact exec_seq_of_done hp (by simp)
  case ignored => rw [exec_ignored hp (by simp) (by simp), respond_of_error hp]

/-! ### The obligations on the step -/

/-- Settles O5: the step takes the event off the list, and a refused word is illegal. -/
theorem stepRunsTheDecodedCommand : Obligations.StepRunsTheDecodedCommand := by
  intro s w rest hin hidle
  have hstep := step_of_command hin hidle
  refine ⟨hstep, fun i hd => hstep.trans (executeWord_of_decode hd _), fun e hd hp => ?raises,
    fun e hd hp => ?ignored⟩
  case raises =>
    have hillegal := (legal_eq_false_iff w).2 ⟨e, hd⟩
    exact hstep.trans (executeWord_illegal_raises hillegal hp)
  case ignored => exact hstep.trans (executeWord_ignored hp (by simp [hd]) (by simp [hd]))

/-- Settles O6: with nothing presented the idle ENGINE waits. -/
theorem idleEngineHoldsItsState : Obligations.IdleEngineHoldsItsState :=
  fun _ => step_of_nothing

/-- Settles O25: the reset comes before all else and leaves fresh registers, as `State.reset` holds them. -/
theorem hardwareResetIsTakenAtAnyTime : Obligations.HardwareResetIsTakenAtAnyTime :=
  fun _ _ hin => ⟨_, step_of_reset hin,
    sameButScratch_of_fresh (freshRegisters_hardwareReset _) { freshRegisters_reset with } rfl rfl⟩

/-- Settles O59: no step from rest observes scratch. -/
theorem scratchIsNeverObserved : Obligations.ScratchIsNeverObserved :=
  fun _ _ s' h hs => followsButScratch_step h hs s'

end Sys2Proof.Proofs
end

section
/-! SUPPORT. The sigma functions bit by bit (40_operators.md R115 to R118), the ROMs as roots of primes (R121,
R122), and the forms of the digest as codes of the hash state (43_formatter.md R194). -/

namespace Sys2Proof.Proofs

open Sys2Proof Sys2Proof.Machine Sys2Proof.Laws

theorem getLsbD_shr (x : Word) (n i : Nat) : (shr x n).getLsbD i = x.getLsbD (i + n) := by
  rw [shr, BitVec.getLsbD_ushiftRight, Nat.add_comm]

/-! ### The digest determines the hash state -/

/-- A word is its four bytes. -/
theorem word_eq_of_bytes {x y : Word}
    (h : ∀ j, j < 4 → x.toNat / 2 ^ (24 - 8 * j) % 256 = y.toNat / 2 ^ (24 - 8 * j) % 256) : x = y := by
  have hx := x.isLt
  have hy := y.isLt
  have h0 := h 0 (by decide)
  have h1 := h 1 (by decide)
  have h2 := h 2 (by decide)
  have h3 := h 3 (by decide)
  apply BitVec.eq_of_toNat_eq
  omega

theorem hash_eq_of_digb {h h' : Vector Word 8}
    (hd : ∀ i, i < 32 → digb h (BitVec.ofNat 5 i) = digb h' (BitVec.ofNat 5 i)) : h = h' := by
  ext1 i hi
  refine word_eq_of_bytes fun j hj => ?_
  have hbyte := congrArg BitVec.toNat (hd (4 * i + j) (by omega))
  have hword : (4 * i + j) / 4 = i := by omega
  have hplace : (4 * i + j) % 4 = j := by omega
  simpa only [digb_ofNat_toNat _ (show 4 * i + j < 32 by omega), hword, hplace] using hbyte

theorem digb_eq_of_formatBytes {h h' : Vector Word 8} (he : formatBytes h = formatBytes h') (i : Nat)
    (hi : i < 32) : digb h (BitVec.ofNat 5 i) = digb h' (BitVec.ofNat 5 i) := by
  have hbyte := congrArg (·[i]?) he
  simpa only [formatBytes_getElem? _ hi, Option.some.injEq] using hbyte

/-- The sixteen character codes differ (R193). -/
theorem hexchar_inj : ∀ v v' : BitVec 4, hexchar v = hexchar v' → v = v' := by decide

theorem nib_eq_of_formatHex {h h' : Vector Word 8} (he : formatHex h = formatHex h') (i : Nat)
    (hi : i < 64) : nib h (BitVec.ofNat 6 i) = nib h' (BitVec.ofNat 6 i) := by
  have hchar := congrArg (·[i]?) he
  simp only [formatHex_getElem? _ hi, Option.some.injEq, digx] at hchar
  exact hexchar_inj _ _ hchar

/-- A byte is its two nibbles. -/
theorem byte_eq_of_halves {x y : Byte} (hhigh : x.extractLsb' 4 4 = y.extractLsb' 4 4)
    (hlow : x.extractLsb' 0 4 = y.extractLsb' 0 4) : x = y := by
  have hhigh := congrArg BitVec.toNat hhigh
  have hlow := congrArg BitVec.toNat hlow
  simp only [BitVec.extractLsb'_toNat, Nat.shiftRight_eq_div_pow] at hhigh hlow
  apply BitVec.eq_of_toNat_eq
  omega

theorem digb_eq_of_nib {h h' : Vector Word 8}
    (hn : ∀ i, i < 64 → nib h (BitVec.ofNat 6 i) = nib h' (BitVec.ofNat 6 i)) (i : Nat) (hi : i < 32) :
    digb h (BitVec.ofNat 5 i) = digb h' (BitVec.ofNat 5 i) := by
  have hhalf : ∀ b, b < 2 → (digb h (BitVec.ofNat 5 i)).extractLsb' (4 * (1 - b)) 4 =
      (digb h' (BitVec.ofNat 5 i)).extractLsb' (4 * (1 - b)) 4 := fun b hb => by
    rw [← nib_eq_half h hi hb, ← nib_eq_half h' hi hb, hn _ (by omega)]
  exact byte_eq_of_halves (hhalf 0 (by decide)) (hhalf 1 (by decide))

/-! ### The obligations -/

/-- Settles O40: a rotated bit comes from its place modulo 32, a shifted one from its place or from none. -/
theorem sigmasAreXorsOfThreeBits : Obligations.SigmasAreXorsOfThreeBits := by
  intro x i hi
  have hrotr := fun n (hn : n < 32) => getLsbD_rotr x hn hi
  refine ⟨?_, ?_, ?_, ?_⟩
  · rw [ssig0, getLsbD_xor32, getLsbD_xor32, hrotr 7 (by decide), hrotr 18 (by decide), getLsbD_shr]
  · rw [ssig1, getLsbD_xor32, getLsbD_xor32, hrotr 17 (by decide), hrotr 19 (by decide), getLsbD_shr]
  · rw [bsig0, getLsbD_xor32, getLsbD_xor32, hrotr 2 (by decide), hrotr 13 (by decide), hrotr 22 (by decide)]
  · rw [bsig1, getLsbD_xor32, getLsbD_xor32, hrotr 6 (by decide), hrotr 11 (by decide), hrotr 25 (by decide)]

/-- Settles O42: the 72 constants of the two tables, one by one. -/
theorem romsHoldRootsOfPrimes : Obligations.RomsHoldRootsOfPrimes := by
  unfold Obligations.RomsHoldRootsOfPrimes
  intro primes
  decide

/-- Settles O53: equal texts have equal nibbles, so equal bytes, and equal bytes come from equal words. -/
theorem digestFormsAreInterchangeable : Obligations.DigestFormsAreInterchangeable :=
  fun _ _ => ⟨fun he => hash_eq_of_digb (digb_eq_of_formatBytes he),
    fun he => hash_eq_of_digb (digb_eq_of_nib (nib_eq_of_formatHex he))⟩

end Sys2Proof.Proofs
end

section
/-! SUPPORT. DATA and FINAL in phase READY (44_commands.md R203, R204, R210): the state an accepted byte and the
padding leave, field by field, and the bytes of the blocks they compress. -/

namespace Sys2Proof.Proofs

open Sys2Proof Sys2Proof.Machine Sys2Proof.Laws

/-! ### What the accepted commands leave -/

theorem decode_eq_data_iff (w : Cmd) (b : Byte) : decode w = .ok (.data b) ↔ w = 0x2000 + b.setWidth 16 := by
  refine (decode_eq_ok_iff rfl).trans ?_
  have hsum := packFields_index (Nat.le_refl 8) 2 b
  rw [BitVec.setWidth_eq] at hsum
  rw [encode, hsum]
  rfl

theorem exec_data_accepted {b : Byte} {s u : State} (hp : s.PHASE = .ready)
    (hl : s.LEN.toNat ≠ Config.maxLen) (hu : appendByte b s = .next u) :
    exec (.data b) s = .next (respond 0 u) := by
  rw [exec, execData, inReady_of_ready hp, if_neg hl, hu, andThen_next]

theorem exec_final_accepted {s u : State} (hp : s.PHASE = .ready) (hu : padAndCompress s = .next u) :
    exec .final s = .next (respond 0 { u with PHASE := .done }) := by
  rw [exec, execFinal, inReady_of_ready hp, hu, andThen_next]

theorem appendByte_of_lt {b : Byte} {s : State} (h : s.FILL.toNat < 63) : appendByte b s =
    .next { s with BUF := s.BUF.write s.FILL.toNat b, LEN := s.LEN + 1, FILL := s.FILL + 1 } := by
  rw [appendByte, if_neg (by omega)]

theorem appendByte_of_last {b : Byte} {s : State} (h : s.FILL.toNat = 63)
    (hfull : (s.BUF.write 63 b).firstUnwritten = none) : appendByte b s =
      .next (compressed { s with BUF := s.BUF.write 63 b, LEN := s.LEN + 1 }) := by
  rw [appendByte, if_pos (by omega), h]
  exact compressBuf_next hfull

/-- With a byte stored at `FILL` the bytes up to it are written. -/
theorem written_write_fill {b : Byte} {m : Memory} {n : Nat} (h : ∀ a, a < n → (m.read a).isSome = true)
    (a : Nat) (ha : a < n + 1) : ((m.write n b).read a).isSome = true := by
  rw [read_write]
  split
  · rfl
  · exact h a (by omega)

/-- The last byte of a block joins 63 written ones (R203). -/
theorem write_last_full {m : Memory} (b : Byte) (h : ∀ a, a < 63 → (m.read a).isSome = true) :
    (m.write 63 b).firstUnwritten = none :=
  (firstUnwritten_eq_none _).2 (written_write_fill h)

/-- FINAL's response to a block compression, field by field, with the bytes of `BUF` named. -/
theorem respond_compressed_withBuf {s : State} (buf : Memory) :
    respond 0 { compressed (withBuf buf s) with PHASE := .done } =
      { s with BUF := buf, FILL := 0, BLKCNT := s.BLKCNT + 1, H := compressBlock s.H buf.block,
               W := schedule buf.block, V := roundsAll (schedule buf.block) s.H, PHASE := .done,
               resp := some ⟨0, true, false⟩ } := rfl

/-- The same where a first block was compressed before it. -/
theorem respond_compressed_withBuf_twice {s : State} (first buf : Memory) :
    respond 0 { compressed (withBuf buf (compressed (withBuf first s))) with PHASE := .done } =
      { s with BUF := buf, FILL := 0, BLKCNT := s.BLKCNT + 2,
               H := compressBlock (compressBlock s.H first.block) buf.block, W := schedule buf.block,
               V := roundsAll (schedule buf.block) (compressBlock s.H first.block), PHASE := .done,
               resp := some ⟨0, true, false⟩ } := by
  have hcount : s.BLKCNT + 2 = s.BLKCNT + 1 + 1 := (BitVec.add_assoc s.BLKCNT 1 1).symm
  rw [hcount]
  rfl

/-- The bytes of the last block as the block compression takes them. -/
theorem lengthBlock_block {m : Memory} {i : Nat} (len : BitVec 61) (h : i ≤ 56)
    (hw : ∀ a, a < i → (m.read a).isSome = true) (j : Nat) (hj : j < 64) :
    some (lengthBlock m i len).block[j] = if j < i then m.read j else if j < 56 then some 0
      else (be64 (BitVec.ofNat 64 (8 * len.toNat)))[j - 56]? := by
  rw [← read_block (lengthBlock_written len h hw) j hj, read_lengthBlock m i len j h hj, bitLen_eq]

/-! ### The obligations on DATA and FINAL -/

/-- Settles O11: the word, the three refusals, the byte stored, and the block it completes. -/
theorem dataStoresItsByteAndCompressesAFullBlock : Obligations.DataStoresItsByteAndCompressesAFullBlock := by
  refine ⟨decode_eq_data_iff, fun b s => ⟨fun hp => ?ignored, fun hp => exec_seq_of_done hp (by simp),
    fun hp hl => exec_data_at_limit hp hl b, fun hp hl hf => ?stored, fun hp hl hf hw => ?completed⟩⟩
  case ignored => rw [exec_ignored hp (by simp) (by simp), respond_of_error hp]
  case stored =>
    exact (exec_data_accepted hp hl (appendByte_of_lt hf)).trans (congrArg _ (respond_of_ready hp))
  case completed =>
    have hfull := write_last_full b hw
    refine ⟨(s.BUF.write 63 b).block, fun j hj => ?_, ?_⟩
    · rw [← read_block hfull j hj, read_write]
      simp only [eq_comm]
    · exact (exec_data_accepted hp hl (appendByte_of_last hf hfull)).trans (congrArg _ (respond_of_ready hp))

/-- Settles O12: `0x80` joins the written bytes, and the zeros and the length fill the block. -/
theorem finalCompletesOneBlock : Obligations.FinalCompletesOneBlock := by
  intro s hp h55 hw
  have hw' := written_write_fill (b := 0x80) hw
  have hi : s.FILL.toNat + 1 ≤ 56 := by omega
  refine ⟨_, lengthBlock (s.BUF.write s.FILL.toNat 0x80) (s.FILL.toNat + 1) s.LEN, fun j hj => ?bytes,
    read_block (lengthBlock_written s.LEN hi hw'), ?run⟩
  case bytes =>
    rw [lengthBlock_block s.LEN hi hw' j hj, read_write]
    rcases Nat.lt_trichotomy j s.FILL.toNat with hlt | rfl | hgt
    · rw [if_pos (by omega), if_neg (by omega), if_pos hlt]
    · rw [if_pos (by omega), if_pos rfl, if_neg (by omega), if_pos rfl]
    · rw [if_neg (show ¬ j < s.FILL.toNat + 1 by omega), if_neg (show ¬ j < s.FILL.toNat by omega),
        if_neg (show j ≠ s.FILL.toNat by omega)]
  case run => rw [exec_final_accepted hp (padAndCompress_one h55 hw), respond_compressed_withBuf]

/-- Settles O13: the block with the marker is full, and the zeros and the length fill the other. -/
theorem finalCompletesTwoBlocks : Obligations.FinalCompletesTwoBlocks := by
  intro s hp h56 hw
  have hfill := s.FILL.isLt
  have hnone : ∀ a, a < 0 → ((markedBlock s.BUF s.FILL.toNat).read a).isSome = true :=
    fun a ha => absurd ha (Nat.not_lt_zero a)
  refine ⟨(markedBlock s.BUF s.FILL.toNat).block, _, lengthBlock (markedBlock s.BUF s.FILL.toNat) 0 s.LEN,
    fun j hj => ?marked, fun j hj => ?last, read_block (lengthBlock_written s.LEN (Nat.zero_le 56) hnone), ?run⟩
  case marked => rw [← read_block (markedBlock_written hfill hw) j hj, read_markedBlock _ _ _ hfill hj]
  case last => rw [lengthBlock_block s.LEN (Nat.zero_le 56) hnone j hj, if_neg (Nat.not_lt_zero j)]
  case run =>
    rw [exec_final_accepted hp (padAndCompress_two h56 hw), respond_compressed_withBuf_twice]

end Sys2Proof.Proofs
end

section
/-! SUPPORT. The frames of the commands (44_commands.md R200 to R210, 10_state.md R21, R27): what DATA, FINAL and
the commands that store nothing leave unchanged, and what writes `LEN`, `H` and `BLKCNT`. -/

namespace Sys2Proof.Proofs

open Sys2Proof Sys2Proof.Machine Sys2Proof.Laws

/-! ### The frame of storing a byte and of padding -/

section
variable {b : Byte} {s u : State}

theorem appendByte_BUF (hu : appendByte b s = .next u) : u.BUF = s.BUF.write s.FILL.toNat b := by
  rcases appendByte_cases hu with ⟨-, rfl⟩ | ⟨h63, -, rfl⟩
  · rfl
  · rw [h63, compressed_BUF]

/-- Short of a whole block the registers of the compressor stay. -/
theorem appendByte_compressor (hu : appendByte b s = .next u) (h63 : s.FILL.toNat ≠ 63) :
    u.H = s.H ∧ u.V = s.V ∧ u.W = s.W ∧ u.BLKCNT = s.BLKCNT := by
  rcases appendByte_cases hu with ⟨-, rfl⟩ | ⟨hlast, -⟩
  · exact ⟨rfl, rfl, rfl, rfl⟩
  · exact absurd hlast h63

/-- FINAL stores from `FILL` up, or to the whole space, and never beyond it (R204, R50). -/
theorem read_padAndCompress (hu : padAndCompress s = .next u) {a : Nat}
    (ha : ¬ ((if s.FILL.toNat ≤ 55 then s.FILL.toNat else 0) ≤ a ∧ a < 64)) :
    u.BUF.read a = s.BUF.read a := by
  have hfill := s.FILL.isLt
  rcases padAndCompress_cases hu with ⟨h55, -, rfl⟩ | ⟨h56, -, rfl⟩ <;> rw [compressed_BUF, withBuf_BUF]
  · rw [if_pos h55] at ha
    have hother := read_write_other s.BUF 0x80 (show s.FILL.toNat ≠ a by omega)
    by_cases h64 : a < 64
    · rw [read_lengthBlock _ _ _ _ (by omega) h64, if_pos (by omega), hother]
    · rw [read_lengthBlock_outside _ _ _ _ (by omega) (by omega), hother]
  · rw [if_neg (by omega)] at ha
    rw [read_lengthBlock_outside _ _ _ _ (by omega) (by omega), read_markedBlock_outside _ _ _ hfill (by omega)]

end

/-! ### The outcomes that a frame distinguishes -/

/-- A command of phase DONE answers or is out of sequence. -/
theorem inDone_read_cases {s t : State} {d : Word} {p : Prop}
    (h : (s.PHASE = .error ∧ t = respond 0 s) ∨ (s.PHASE = .ready ∧ t = raiseErr .seq s) ∨
      (s.PHASE = .done ∧ t = respond d s)) :
    (∃ d, t = respond d s) ∨ (s.PHASE ≠ .error ∧ ∃ c, t = raiseErr c s) ∨ p := by
  rcases h with ⟨-, rfl⟩ | ⟨hp, rfl⟩ | ⟨-, rfl⟩
  · exact .inl ⟨0, rfl⟩
  · exact .inr (.inl ⟨by simp [hp], _, rfl⟩)
  · exact .inl ⟨d, rfl⟩

/-- NOP, ENDRAW and the commands that read answer, raise an error, or end the message. -/
theorem exec_storeless_cases {i : Instr} {s t : State}
    (hi : i = .nop ∨ i = .endraw ∨ (∃ k, i = .rdw k) ∨ (∃ k, i = .rdb k) ∨ (∃ k, i = .rdx k) ∨
      ∃ n, i = .rdsr n)
    (h : exec i s = .next t) :
    (∃ d, t = respond d s) ∨ (s.PHASE ≠ .error ∧ ∃ c, t = raiseErr c s) ∨
      (i = .endraw ∧ t = respond 0 { s with PHASE := .done }) := by
  rcases hi with rfl | rfl | ⟨k, rfl⟩ | ⟨k, rfl⟩ | ⟨k, rfl⟩ | ⟨n, rfl⟩
  · cases h
    exact .inl ⟨0, rfl⟩
  · rcases execEndraw_cases h with ⟨-, rfl⟩ | ⟨hp, rfl⟩ | ⟨hp, -, rfl⟩ | ⟨-, -, rfl⟩
    · exact .inl ⟨0, rfl⟩
    · exact .inr (.inl ⟨by simp [hp], _, rfl⟩)
    · exact .inr (.inl ⟨by simp [hp], _, rfl⟩)
    · exact .inr (.inr ⟨rfl, rfl⟩)
  · exact inDone_read_cases (execRdw_cases h)
  · exact inDone_read_cases (execRdb_cases h)
  · exact inDone_read_cases (execRdx_cases h)
  · rcases execRdsr_cases h with ⟨v, -, rfl⟩ | ⟨-, -, rfl⟩ | ⟨-, hp, rfl⟩
    · exact .inl ⟨v, rfl⟩
    · exact .inl ⟨0, rfl⟩
    · exact .inr (.inl ⟨hp, _, rfl⟩)

/-- The three RDSR commands without a register are illegal (R84). -/
theorem exec_rdsr_reserved {n : BitVec 3} {s : State} (hn : 5 ≤ n.toNat) (hp : s.PHASE ≠ .error) :
    exec (.rdsr n) s = .next (raiseErr .cmd s) := by
  simp only [exec, execRdsr, statusReg_eq_none hn, illegalCommand_of_ne hp]

theorem exec_data_accepted_cases {b : Byte} {s t : State} (h : exec (.data b) s = .next t)
    (hp : s.PHASE = .ready) (hl : s.LEN.toNat ≠ Config.maxLen) :
    ∃ u, appendByte b s = .next u ∧ t = respond 0 u := by
  rcases execData_cases h with ⟨hp', -⟩ | ⟨hp', -⟩ | ⟨-, hl', -⟩ | ⟨-, -, hu⟩
  · cases hp.symm.trans hp'
  · cases hp.symm.trans hp'
  · exact absurd hl' hl
  · exact hu

theorem exec_final_accepted_cases {s t : State} (h : exec .final s = .next t) (hp : s.PHASE = .ready) :
    ∃ u, padAndCompress s = .next u ∧ t = respond 0 { u with PHASE := .done } := by
  rcases execFinal_cases h with ⟨hp', -⟩ | ⟨hp', -⟩ | ⟨-, hu⟩
  · cases hp.symm.trans hp'
  · cases hp.symm.trans hp'
  · exact hu

/-! ### The obligations on counters and frames -/

/-- Settles O22: `LEN` stays, is cleared, or counts up from below the limit. -/
theorem lenCountsDataBytesAndNeverWraps : Obligations.LenCountsDataBytesAndNeverWraps := by
  intro w s t h
  rcases executeWord_LEN h with hsame | ⟨hd, hzero⟩ | ⟨hd, hl, hlen, hphase⟩
  · exact .inl hsame
  · exact .inr (.inl ⟨decode_init_word hd, hzero⟩)
  · have hlt := s.LEN.isLt
    have hmax : s.LEN.toNat ≠ 2 ^ 61 - 1 := hl
    exact .inr (.inr ⟨hd, by rw [hlen, toNat_add_one (by omega)], hphase⟩)

/-- Settles O31: each of the three outcomes keeps the registers; NOP and RDSR have one outcome. -/
theorem commandsThatStoreNothingKeepAllButPhaseAndErr :
    Obligations.CommandsThatStoreNothingKeepAllButPhaseAndErr := by
  intro i s t hi h
  have hnop : i = .nop → t.PHASE = s.PHASE ∧ t.ERR = s.ERR := by
    rintro rfl
    cases h
    exact ⟨rfl, rfl⟩
  have hrdsr : (∃ n : BitVec 3, n.toNat ≤ 4 ∧ i = .rdsr n) → t.PHASE = s.PHASE ∧ t.ERR = s.ERR := by
    rintro ⟨n, hn, rfl⟩
    obtain ⟨v, hv⟩ := statusReg_isSome (s := s) hn
    cases h.symm.trans (exec_rdsr hv)
    exact ⟨rfl, rfl⟩
  have hreserved : (∃ n : BitVec 3, 5 ≤ n.toNat ∧ i = .rdsr n) → s.PHASE ≠ .error →
      t.PHASE = .error ∧ t.ERR = .cmd := by
    rintro ⟨n, hn, rfl⟩ hp
    cases h.symm.trans (exec_rdsr_reserved hn hp)
    exact ⟨rfl, rfl⟩
  rcases exec_storeless_cases hi h with ⟨d, rfl⟩ | ⟨hp, c, rfl⟩ | ⟨hendraw, rfl⟩
  · exact ⟨rfl, rfl, rfl, rfl, rfl, rfl, rfl, rfl, rfl, fun _ => rfl, .inl rfl, .inl rfl, hnop, hrdsr, hreserved⟩
  · exact ⟨rfl, rfl, rfl, rfl, rfl, rfl, rfl, rfl, rfl, fun _ => rfl, .inr ⟨rfl, hp⟩, .inr (.inl rfl), hnop,
      hrdsr, hreserved⟩
  · exact ⟨rfl, rfl, rfl, rfl, rfl, rfl, rfl, rfl, rfl, fun _ => rfl, .inl rfl, .inr (.inr ⟨hendraw, rfl⟩),
      hnop, hrdsr, hreserved⟩

/-- Settles O32: an accepted byte is written at `FILL`, and a refused one stores nothing. -/
theorem dataChangesOneByteOfTheBuffer : Obligations.DataChangesOneByteOfTheBuffer := by
  intro b s t h
  rcases execData_cases h with ⟨hp, rfl⟩ | ⟨hp, rfl⟩ | ⟨hp, hl, rfl⟩ | ⟨hp, hl, u, hu, rfl⟩
  · simp [hp]
  · simp [hp]
  · have hlimit : s.LEN.toNat = 2 ^ 61 - 1 := hl
    simp [hp, hlimit]
  · obtain ⟨hphase, herr, hseq, hinputs, hdraws, -⟩ := appendByte_fields hu
    have hbuf := appendByte_BUF hu
    have hregs := appendByte_compressor hu
    refine ⟨fun a ha => ?_, fun _ _ => ⟨?_, hphase, herr⟩, fun hn => absurd ⟨hp, hl⟩ hn,
      fun hn => hregs fun h63 => hn ⟨hp, hl, h63⟩, fun _ => ⟨hphase, herr⟩, hseq, hinputs,
      hdraws⟩
    · rw [respond_BUF, hbuf, read_write_other _ _ (ha hp hl).symm]
    · rw [respond_BUF, hbuf, read_write_same]

/-- Settles O33: padding stores inside its range, and outside READY nothing is stored. -/
theorem finalStoresOnlyThePadding : Obligations.FinalStoresOnlyThePadding := by
  intro s t h
  rcases execFinal_cases h with ⟨hp, rfl⟩ | ⟨hp, rfl⟩ | ⟨hp, u, hu, rfl⟩
  · simp [hp]
  · simp [hp]
  · obtain ⟨-, herr, hseq, hinputs, hdraws, -, hlen⟩ := padAndCompress_fields hu
    exact ⟨fun a ha => read_padAndCompress hu (ha hp), hlen, hseq, hinputs, hdraws, fun _ => herr,
      fun hn => absurd hp hn, fun he => by simp [hp] at he⟩

/-- Settles O34: INIT, the 64th byte and FINAL in READY each write `H` and `BLKCNT` as told, and no other
outcome of a word touches them. -/
theorem hashStateIsWrittenByInitAndCompressionOnly :
    Obligations.HashStateIsWrittenByInitAndCompressionOnly := by
  intro w s t h
  refine ⟨fun hd => ?init, fun b hd hp hl h63 => ?data, fun hd hp h55 => ?one, fun hd hp h56 => ?two,
    fun hinit hdata hfinal => ?other⟩
  case init =>
    have hfresh := freshRegisters_init ((executeWord_of_decode hd s).symm.trans h)
    exact ⟨hfresh.H, hfresh.BLKCNT⟩
  case data =>
    obtain ⟨u, hu, rfl⟩ := exec_data_accepted_cases ((executeWord_of_decode hd s).symm.trans h) hp hl
    rcases appendByte_cases hu with ⟨hlt, -⟩ | ⟨-, -, rfl⟩
    · omega
    · exact ⟨rfl, rfl⟩
  case one =>
    obtain ⟨u, hu, rfl⟩ := exec_final_accepted_cases ((executeWord_of_decode hd s).symm.trans h) hp
    rcases padAndCompress_cases hu with ⟨-, -, rfl⟩ | ⟨h56, -⟩
    · rw [respond_compressed_withBuf]
      exact ⟨rfl, rfl⟩
    · omega
  case two =>
    obtain ⟨u, hu, rfl⟩ := exec_final_accepted_cases ((executeWord_of_decode hd s).symm.trans h) hp
    rcases padAndCompress_cases hu with ⟨h55, -⟩ | ⟨-, -, rfl⟩
    · omega
    · rw [respond_compressed_withBuf_twice]
      exact ⟨rfl, rfl⟩
  case other =>
    cases executed h with
    | init hd => exact absurd hd hinit
    | data hp b hd hl u hu =>
      obtain ⟨hH, -, -, hblk⟩ := appendByte_compressor hu fun h63 => hdata ⟨⟨b, hd⟩, hp, hl, h63⟩
      exact ⟨hH, hblk⟩
    | final hp hd => exact absurd ⟨hd, hp⟩ hfinal
    | _ => exact ⟨rfl, rfl⟩

end Sys2Proof.Proofs
end

section
/-! SUPPORT. The message received, command by command (10_state.md R37, 44_commands.md R203, R204): none after
INIT or a reset, one byte more after a DATA, and its padded form compressed after FINAL. -/

namespace Sys2Proof.Proofs

open Sys2Proof Sys2Proof.Machine Sys2Proof.Laws

/-- Settles O54: fresh registers are those of the empty message. -/
theorem aFreshInvocationHasReceivedNothing : Obligations.AFreshInvocationHasReceivedNothing :=
  ⟨fun _ _ h => absorbed_of_fresh (freshRegisters_init h),
    fun s => absorbed_of_fresh (freshRegisters_hardwareReset s)⟩

/-- Settles O55: the byte joins the message, and the response changes none of it. -/
theorem dataExtendsTheMessageReceived : Obligations.DataExtendsTheMessageReceived := by
  intro s m b h hm
  obtain ⟨u, hexec, -, habs⟩ := absorbed_execData h b hm
  exact ⟨_, hexec, absorbed_respond habs 0⟩

/-- Settles O56: the padding compresses the padded message, whose blocks `BLKCNT` counts. -/
theorem finalLeavesTheDigestOfThePaddedMessage : Obligations.FinalLeavesTheDigestOfThePaddedMessage := by
  intro s m h
  obtain ⟨u, hu, hfill, hblocks⟩ := absorbed_padAndCompress h
  obtain ⟨-, -, -, -, -, -, hlen⟩ := padAndCompress_fields hu
  obtain ⟨t, hexec, -, -, -, hhash⟩ := absorbed_execFinal h
  cases hexec.symm.trans (exec_final_accepted h.phase hu)
  have hpad : pad m = some (padBytes m) :=
    (pad_eq_some_iff m _).2 ⟨Nat.le_sub_one_of_lt (absorbed_length h), rfl⟩
  obtain ⟨-, -, -, -, hcount, -⟩ := paddedLengthIsWholeBlocks m _ hpad
  exact ⟨_, hexec, hhash, rfl, hfill, hlen, hblocks.blkcnt.trans hcount⟩

end Sys2Proof.Proofs
end
